-- ==== Sys2Proof/Word.lean ====
section
/-! DEFINITION. The word, byte and register-index types of CORE. -/

namespace Sys2Proof

/-- A register value, a memory word, an ALU operand, an address (R9: "a vector of 32 bits"). -/
abbrev Word := BitVec 32

/-- One stored unit of either store (R51: "one byte of 8 bits"). -/
abbrev Byte := BitVec 8

/-- A register index as an instruction carries it (R20, R94: an unsigned 5-bit index). -/
abbrev RegIdx := BitVec 5

end Sys2Proof
end

