-- ==== Sys2Proof/Config.lean ====
section
/-! DEFINITION. The named parameters of R6 that are fixed for the machine. The OPEN parameters of R6
(IMEM_SIZE, IMEM_INIT, DMEM_SIZE, DMEM_INIT, NCORES) stand in State and System
(Machine/System.lean, whose form gives NCORES ≥ 1; `launch` checks the bounds on the sizes), so that every claim about
every state holds for every value of them. The spec leaves no result open, so there is no free value. -/

namespace Sys2Proof.Config

/-- HALT_OPCODE (R6, R88, decision D9). PRESUMED, log entry 4. -/
def haltOpcode : BitVec 7 := 0b1111111#7

/-- RTYPE_LOOSE (R6, R95, decision D10): false is the strict reading. DESIGN CHOICE of the spec, log entry 5. -/
def rtypeLoose : Bool := false

/-- PC_RESET (R6, R39, decision D3). DEDUCED, log entry 7. -/
def pcReset : Word := 0#32

/-- REG_RESET (R6, R38, decision D2): the value of every register after reset. DESIGN CHOICE, log entry 6. -/
def regReset : Word := 0#32

/-- The largest size in bytes of either store (R6, decision D6: at most 2^31). -/
def maxStoreSize : Nat := 2 ^ 31

end Sys2Proof.Config
end

