-- ==== Sys2Proof/Syntax.lean ====
section
/-! DEFINITION. The fifteen instructions, one constructor per row of spec/opcode_table.json. Operands are those of the
decoder's record (R169). An immediate or offset is the sign-extended 32-bit value, "never a raw bit string past the
decoder boundary"; a B or J offset is the byte offset, already doubled (R92, R93). -/

namespace Sys2Proof

/-- R1: "exactly the fifteen operations ADD, SUB, XOR, OR, AND, ADDI, XORI, ORI, ANDI, LW, SW, BEQ, BNE, JAL, HALT". -/
inductive Instr where
  | add  (rd rs1 rs2 : RegIdx)
  | sub  (rd rs1 rs2 : RegIdx)
  | xor  (rd rs1 rs2 : RegIdx)
  | or   (rd rs1 rs2 : RegIdx)
  | and  (rd rs1 rs2 : RegIdx)
  | addi (rd rs1 : RegIdx) (imm : Word)
  | xori (rd rs1 : RegIdx) (imm : Word)
  | ori  (rd rs1 : RegIdx) (imm : Word)
  | andi (rd rs1 : RegIdx) (imm : Word)
  | lw   (rd rs1 : RegIdx) (imm : Word)
  | sw   (rs1 rs2 : RegIdx) (imm : Word)
  | beq  (rs1 rs2 : RegIdx) (off : Word)
  | bne  (rs1 rs2 : RegIdx) (off : Word)
  | jal  (rd : RegIdx) (off : Word)
  | halt
deriving DecidableEq, Repr

/-- The row of the opcode table an instruction stands for (R104). -/
def Instr.mnemonic : Instr → String
  | .add _ _ _  => "ADD"
  | .sub _ _ _  => "SUB"
  | .xor _ _ _  => "XOR"
  | .or _ _ _   => "OR"
  | .and _ _ _  => "AND"
  | .addi _ _ _ => "ADDI"
  | .xori _ _ _ => "XORI"
  | .ori _ _ _  => "ORI"
  | .andi _ _ _ => "ANDI"
  | .lw _ _ _   => "LW"
  | .sw _ _ _   => "SW"
  | .beq _ _ _  => "BEQ"
  | .bne _ _ _  => "BNE"
  | .jal _ _    => "JAL"
  | .halt       => "HALT"

/-- The registers an instruction reads (R22). -/
def Instr.sources : Instr → List RegIdx
  | .add _ rs1 rs2  => [rs1, rs2]
  | .sub _ rs1 rs2  => [rs1, rs2]
  | .xor _ rs1 rs2  => [rs1, rs2]
  | .or _ rs1 rs2   => [rs1, rs2]
  | .and _ rs1 rs2  => [rs1, rs2]
  | .addi _ rs1 _   => [rs1]
  | .xori _ rs1 _   => [rs1]
  | .ori _ rs1 _    => [rs1]
  | .andi _ rs1 _   => [rs1]
  | .lw _ rs1 _     => [rs1]
  | .sw rs1 rs2 _   => [rs1, rs2]
  | .beq rs1 rs2 _  => [rs1, rs2]
  | .bne rs1 rs2 _  => [rs1, rs2]
  | .jal _ _        => []
  | .halt           => []

/-- The register an instruction writes, if any (R22: "A step writes at most one register"). -/
def Instr.dest : Instr → Option RegIdx
  | .add rd _ _  => some rd
  | .sub rd _ _  => some rd
  | .xor rd _ _  => some rd
  | .or rd _ _   => some rd
  | .and rd _ _  => some rd
  | .addi rd _ _ => some rd
  | .xori rd _ _ => some rd
  | .ori rd _ _  => some rd
  | .andi rd _ _ => some rd
  | .lw rd _ _   => some rd
  | .sw _ _ _    => none
  | .beq _ _ _   => none
  | .bne _ _ _   => none
  | .jal rd _    => some rd
  | .halt        => none

end Sys2Proof
end

