-- ==== Sys2Proof/WellFormed.lean ====
section
/-! DEFINITION. Which instructions an encoding exists for: the ranges R90 to R93 give each immediate and offset. A register
operand is five bits wide by its type (R94), so it needs no check. -/

namespace Sys2Proof

/-- `v` is the sign extension of its low `n` bits: the value of some `n`-bit two's-complement field. -/
def fitsSigned (n : Nat) (v : Word) : Bool := (v.setWidth n).signExtend 32 == v

/-- R92, R93: the appended zero bit makes every offset even. -/
def evenOffset (v : Word) : Bool := !v.getLsbD 0

/-- R90, R91: an I or S immediate lies in −2048 to 2047. -/
def imm12Ok (imm : Word) : Bool := fitsSigned 12 imm

/-- R92: a B offset is "an even number in −4096 to 4094". -/
def offBOk (off : Word) : Bool := fitsSigned 13 off && evenOffset off

/-- R93: a J offset is "an even number in −1048576 to 1048574". -/
def offJOk (off : Word) : Bool := fitsSigned 21 off && evenOffset off

/-- The instructions some word of the encoding stands for. -/
def Instr.wellFormed : Instr → Bool
  | .add _ _ _    => true
  | .sub _ _ _    => true
  | .xor _ _ _    => true
  | .or _ _ _     => true
  | .and _ _ _    => true
  | .addi _ _ imm => imm12Ok imm
  | .xori _ _ imm => imm12Ok imm
  | .ori _ _ imm  => imm12Ok imm
  | .andi _ _ imm => imm12Ok imm
  | .lw _ _ imm   => imm12Ok imm
  | .sw _ _ imm   => imm12Ok imm
  | .beq _ _ off  => offBOk off
  | .bne _ _ off  => offBOk off
  | .jal _ off    => offJOk off
  | .halt         => true

end Sys2Proof
end

