-- ==== Sys2Proof/Decode.lean ====
section
/-! DEFINITION. The instruction decoder and the encoder (30_encoding.md). Bits are numbered as R8 numbers them, `inst[0]`
least significant. The decoder is a pure function of the 32 bits, total, and rejects by name (R80, R101, R169). -/

namespace Sys2Proof

/-! ### Fields (R81, R82) -/

/-- R81: `inst[6:0]`. -/
def fieldOpcode (w : Word) : BitVec 7 := w.extractLsb' 0 7
/-- R82: `inst[11:7]`. -/
def fieldRd (w : Word) : RegIdx := w.extractLsb' 7 5
/-- R82: `inst[14:12]`. -/
def fieldFunct3 (w : Word) : BitVec 3 := w.extractLsb' 12 3
/-- R82: `inst[19:15]`. -/
def fieldRs1 (w : Word) : RegIdx := w.extractLsb' 15 5
/-- R82: `inst[24:20]`. -/
def fieldRs2 (w : Word) : RegIdx := w.extractLsb' 20 5
/-- R82: `inst[31:25]`. -/
def fieldFunct7 (w : Word) : BitVec 7 := w.extractLsb' 25 7

/-! ### Immediates (R90 to R93) -/

/-- R90: `sext_12(inst[31:20])`. -/
def immI (w : Word) : Word := (w.extractLsb' 20 12).signExtend 32

/-- R91: `sext_12(inst[31:25] ++ inst[11:7])`. -/
def immS (w : Word) : Word := (w.extractLsb' 25 7 ++ w.extractLsb' 7 5).signExtend 32

/-- R92: `sext_13(inst[31] ++ inst[7] ++ inst[30:25] ++ inst[11:8] ++ 0b0)`. Bit 11 is `inst[7]` (conflict C2, decision
D11, log entry 11). -/
def offB (w : Word) : Word :=
  (w.extractLsb' 31 1 ++ w.extractLsb' 7 1 ++ w.extractLsb' 25 6 ++ w.extractLsb' 8 4 ++ 0#1).signExtend 32

/-- R93: `sext_21(inst[31] ++ inst[19:12] ++ inst[20] ++ inst[30:21] ++ 0b0)`. -/
def offJ (w : Word) : Word :=
  (w.extractLsb' 31 1 ++ w.extractLsb' 12 8 ++ w.extractLsb' 20 1 ++ w.extractLsb' 21 10 ++ 0#1).signExtend 32

/-! ### Numeric codes (R81, R95 to R99; general knowledge of RV32I, decision D14, log entry 12) -/

def opReg    : BitVec 7 := 0b0110011#7
def opImm    : BitVec 7 := 0b0010011#7
def opLoad   : BitVec 7 := 0b0000011#7
def opStore  : BitVec 7 := 0b0100011#7
def opBranch : BitVec 7 := 0b1100011#7
def opJal    : BitVec 7 := 0b1101111#7
/-- R88: the halt format's opcode. -/
def opHalt   : BitVec 7 := Config.haltOpcode

def funct7Zero : BitVec 7 := 0b0000000#7
def funct7Sub  : BitVec 7 := 0b0100000#7

def funct3Add : BitVec 3 := 0b000#3
def funct3Xor : BitVec 3 := 0b100#3
def funct3Or  : BitVec 3 := 0b110#3
def funct3And : BitVec 3 := 0b111#3
def funct3Beq : BitVec 3 := 0b000#3
def funct3Bne : BitVec 3 := 0b001#3
/-- R96, R97: the canonical funct3 of LW and SW; the decoder does not examine it. -/
def funct3Word : BitVec 3 := 0b010#3

/-! ### Decoding -/

/-- Why a word, or a byte string, is no instruction. The four word cases are R101 (a) to (d). -/
inductive Reject where
  /-- R101 (a): the opcode is not one of the seven mapped values. -/
  | unmappedOpcode (opcode : BitVec 7)
  /-- R101 (b): opcode 0x33 with a (funct7, funct3) pair outside R95. -/
  | noRegisterOp (funct7 : BitVec 7) (funct3 : BitVec 3)
  /-- R101 (c): opcode 0x13 with a funct3 outside R98. -/
  | noImmediateOp (funct3 : BitVec 3)
  /-- R101 (d): opcode 0x63 with a funct3 outside R99. -/
  | noBranchOp (funct3 : BitVec 3)
  /-- Fewer than four bytes: every instruction is exactly 32 bits (R80). -/
  | truncated
deriving DecidableEq, Repr

/-- R95, `RTYPE_LOOSE = false`: only the five (funct7, funct3) pairs decode (conflict C10). -/
def decodeRegStrict (w : Word) : Except Reject Instr :=
  if fieldFunct7 w = funct7Sub ∧ fieldFunct3 w = funct3Add then .ok (.sub (fieldRd w) (fieldRs1 w) (fieldRs2 w))
  else if fieldFunct7 w = funct7Zero ∧ fieldFunct3 w = funct3Add then .ok (.add (fieldRd w) (fieldRs1 w) (fieldRs2 w))
  else if fieldFunct7 w = funct7Zero ∧ fieldFunct3 w = funct3Xor then .ok (.xor (fieldRd w) (fieldRs1 w) (fieldRs2 w))
  else if fieldFunct7 w = funct7Zero ∧ fieldFunct3 w = funct3Or then .ok (.or (fieldRd w) (fieldRs1 w) (fieldRs2 w))
  else if fieldFunct7 w = funct7Zero ∧ fieldFunct3 w = funct3And then .ok (.and (fieldRd w) (fieldRs1 w) (fieldRs2 w))
  else .error (.noRegisterOp (fieldFunct7 w) (fieldFunct3 w))

/-- R95, `RTYPE_LOOSE = true`: funct7 is tested against the SUB pattern first, whatever funct3 is, and otherwise ignored. -/
def decodeRegLoose (w : Word) : Except Reject Instr :=
  if fieldFunct7 w = funct7Sub then .ok (.sub (fieldRd w) (fieldRs1 w) (fieldRs2 w))
  else if fieldFunct3 w = funct3Add then .ok (.add (fieldRd w) (fieldRs1 w) (fieldRs2 w))
  else if fieldFunct3 w = funct3Xor then .ok (.xor (fieldRd w) (fieldRs1 w) (fieldRs2 w))
  else if fieldFunct3 w = funct3Or then .ok (.or (fieldRd w) (fieldRs1 w) (fieldRs2 w))
  else if fieldFunct3 w = funct3And then .ok (.and (fieldRd w) (fieldRs1 w) (fieldRs2 w))
  else .error (.noRegisterOp (fieldFunct7 w) (fieldFunct3 w))

/-- R98: "inst[31:25] is never examined as a funct7". -/
def decodeImm (w : Word) : Except Reject Instr :=
  if fieldFunct3 w = funct3Add then .ok (.addi (fieldRd w) (fieldRs1 w) (immI w))
  else if fieldFunct3 w = funct3Xor then .ok (.xori (fieldRd w) (fieldRs1 w) (immI w))
  else if fieldFunct3 w = funct3Or then .ok (.ori (fieldRd w) (fieldRs1 w) (immI w))
  else if fieldFunct3 w = funct3And then .ok (.andi (fieldRd w) (fieldRs1 w) (immI w))
  else .error (.noImmediateOp (fieldFunct3 w))

/-- R99. -/
def decodeBranch (w : Word) : Except Reject Instr :=
  if fieldFunct3 w = funct3Beq then .ok (.beq (fieldRs1 w) (fieldRs2 w) (offB w))
  else if fieldFunct3 w = funct3Bne then .ok (.bne (fieldRs1 w) (fieldRs2 w) (offB w))
  else .error (.noBranchOp (fieldFunct3 w))

/-- The decoder with `RTYPE_LOOSE` as an argument (R81, R95 to R101, R169). -/
def decodeWordWith (loose : Bool) (w : Word) : Except Reject Instr :=
  if fieldOpcode w = opReg then (if loose then decodeRegLoose w else decodeRegStrict w)
  else if fieldOpcode w = opImm then decodeImm w
  else if fieldOpcode w = opLoad then .ok (.lw (fieldRd w) (fieldRs1 w) (immI w))
  else if fieldOpcode w = opStore then .ok (.sw (fieldRs1 w) (fieldRs2 w) (immS w))
  else if fieldOpcode w = opBranch then decodeBranch w
  else if fieldOpcode w = opJal then .ok (.jal (fieldRd w) (offJ w))
  else if fieldOpcode w = opHalt then .ok .halt
  else .error (.unmappedOpcode (fieldOpcode w))

/-- R169: `Decode(inst)`, total on all 2^32 words. -/
def decodeWord (w : Word) : Except Reject Instr := decodeWordWith Config.rtypeLoose w

/-! ### Byte order (R52, R54, R55, R58: big-endian, log entry 10) -/

/-- The word whose most significant byte is `b0`, the byte at the lowest address. -/
def wordOfBytes (b0 b1 b2 b3 : Byte) : Word := b0 ++ b1 ++ b2 ++ b3

/-- Byte `k` of a word, 0 the most significant: the byte at address `a + k`. -/
def wordByte (w : Word) (k : Nat) : Byte := w.extractLsb' (24 - 8 * k) 8

/-- A word as it lies in a store, lowest address first. -/
def wordBytes (w : Word) : List Byte := [wordByte w 0, wordByte w 1, wordByte w 2, wordByte w 3]

/-- Decoding on any byte string: the instruction of the first four bytes, and the bytes after it (R80: one length only). -/
def decode : List Byte → Except Reject (Instr × List Byte)
  | b0 :: b1 :: b2 :: b3 :: rest =>
    match decodeWord (wordOfBytes b0 b1 b2 b3) with
    | .ok i => .ok (i, rest)
    | .error r => .error r
  | _ => .error .truncated

/-- The instruction the decoder reads from a table row's word `w` of `nbits` bits, the bits above them 0. -/
def decodeTableWord (nbits w : Nat) : Option Instr :=
  match decode (wordBytes (BitVec.ofNat 32 (w % 2 ^ nbits))) with
  | .ok (i, _) => some i
  | .error _ => none

/-! ### Encoding -/

/-- R83. -/
def encodeR (funct7 : BitVec 7) (funct3 : BitVec 3) (rd rs1 rs2 : RegIdx) : Word :=
  funct7 ++ rs2 ++ rs1 ++ funct3 ++ rd ++ opReg

/-- R84. -/
def encodeI (opcode : BitVec 7) (funct3 : BitVec 3) (rd rs1 : RegIdx) (imm : Word) : Word :=
  imm.extractLsb' 0 12 ++ rs1 ++ funct3 ++ rd ++ opcode

/-- R85. -/
def encodeS (funct3 : BitVec 3) (rs1 rs2 : RegIdx) (imm : Word) : Word :=
  imm.extractLsb' 5 7 ++ rs2 ++ rs1 ++ funct3 ++ imm.extractLsb' 0 5 ++ opStore

/-- R86. -/
def encodeB (funct3 : BitVec 3) (rs1 rs2 : RegIdx) (off : Word) : Word :=
  off.extractLsb' 12 1 ++ off.extractLsb' 5 6 ++ rs2 ++ rs1 ++ funct3 ++ off.extractLsb' 1 4 ++ off.extractLsb' 11 1
    ++ opBranch

/-- R87. -/
def encodeJ (rd : RegIdx) (off : Word) : Word :=
  off.extractLsb' 20 1 ++ off.extractLsb' 1 10 ++ off.extractLsb' 11 1 ++ off.extractLsb' 12 8 ++ rd ++ opJal

/-- R88: the canonical halt word has all of `inst[31:7]` set. -/
def encodeHalt : Word := BitVec.allOnes 25 ++ opHalt

/-- The canonical word of an instruction, the one an assembler emits (R104). -/
def encodeWord : Instr → Word
  | .add rd rs1 rs2   => encodeR funct7Zero funct3Add rd rs1 rs2
  | .sub rd rs1 rs2   => encodeR funct7Sub funct3Add rd rs1 rs2
  | .xor rd rs1 rs2   => encodeR funct7Zero funct3Xor rd rs1 rs2
  | .or rd rs1 rs2    => encodeR funct7Zero funct3Or rd rs1 rs2
  | .and rd rs1 rs2   => encodeR funct7Zero funct3And rd rs1 rs2
  | .addi rd rs1 imm  => encodeI opImm funct3Add rd rs1 imm
  | .xori rd rs1 imm  => encodeI opImm funct3Xor rd rs1 imm
  | .ori rd rs1 imm   => encodeI opImm funct3Or rd rs1 imm
  | .andi rd rs1 imm  => encodeI opImm funct3And rd rs1 imm
  | .lw rd rs1 imm    => encodeI opLoad funct3Word rd rs1 imm
  | .sw rs1 rs2 imm   => encodeS funct3Word rs1 rs2 imm
  | .beq rs1 rs2 off  => encodeB funct3Beq rs1 rs2 off
  | .bne rs1 rs2 off  => encodeB funct3Bne rs1 rs2 off
  | .jal rd off       => encodeJ rd off
  | .halt             => encodeHalt

/-- The bytes of a well-formed instruction in address order. -/
def encode (i : Instr) : List Byte := wordBytes (encodeWord i)

/-! ### The opcode map (R104) -/

/-- One row of R104: "a word w selects the operation when w & mask = match". -/
structure OpcodeRow where
  mnemonic : String
  pattern : Word
  mask : Word
deriving DecidableEq, Repr

/-- A word selects a row. -/
def OpcodeRow.selects (r : OpcodeRow) (w : Word) : Bool := w &&& r.mask == r.pattern

/-- The fifteen rows of R104. -/
def opcodeRows : List OpcodeRow :=
  [⟨"ADD",  0x00000033#32, 0xFE00707F#32⟩,
   ⟨"SUB",  0x40000033#32, 0xFE00707F#32⟩,
   ⟨"XOR",  0x00004033#32, 0xFE00707F#32⟩,
   ⟨"OR",   0x00006033#32, 0xFE00707F#32⟩,
   ⟨"AND",  0x00007033#32, 0xFE00707F#32⟩] ++
  [⟨"ADDI", 0x00000013#32, 0x0000707F#32⟩,
   ⟨"XORI", 0x00004013#32, 0x0000707F#32⟩,
   ⟨"ORI",  0x00006013#32, 0x0000707F#32⟩,
   ⟨"ANDI", 0x00007013#32, 0x0000707F#32⟩,
   ⟨"LW",   0x00000003#32, 0x0000007F#32⟩] ++
  [⟨"SW",   0x00000023#32, 0x0000007F#32⟩,
   ⟨"BEQ",  0x00000063#32, 0x0000707F#32⟩,
   ⟨"BNE",  0x00001063#32, 0x0000707F#32⟩,
   ⟨"JAL",  0x0000006F#32, 0x0000007F#32⟩,
   ⟨"HALT", 0x0000007F#32, 0x0000007F#32⟩]

end Sys2Proof
end

