-- ==== Sys2Proof/Machine/State.lean ====
section
/-! DEFINITION. The state of one core instance as plain data (10_state.md section 1: "One core instance holds exactly the
following state. Nothing else persists from one step to the next"), the reasons a step can stop, and the state after reset. -/

namespace Sys2Proof.Machine

/-- The contents of one store: (address, byte) pairs in the canonical form of `Memory.wf` (Machine/Ops.lean). -/
abbrev Memory := List Host.Cell

/-- One of the two stores (R34, R51): its size in bytes, fixed at load time (R35), and its contents. -/
structure Store where
  size  : Nat
  cells : Memory
deriving DecidableEq, Repr

/-- The port an OutOfRangeError is recorded with (R186). -/
inductive Port where
  | fetch
  | data
deriving DecidableEq, Repr

/-- The three kinds of fatal error with the information R186 records (decision D13, log entry 21). -/
inductive ErrorCause where
  /-- R181: the fetched word selects no operation. -/
  | decodeError (word : Word)
  /-- R182, R183: a misaligned or out-of-bounds fetch or data access. -/
  | outOfRange (port : Port) (addr : Word)
  /-- R184: a register index outside 0 to 31 at the register file's boundary. No step raises it. -/
  | invalidRegisterIndex
deriving DecidableEq, Repr

/-- R30, R31: the three conditions of a core, mutually exclusive. HaltFlag is `status = halted`. -/
inductive Status where
  | running
  | halted
  | faulted (cause : ErrorCause)
deriving DecidableEq, Repr

/-- One core instance. -/
structure State where
  /-- `x[0]` to `x[31]` (R20); index 0 is an ordinary register (R21). -/
  regs   : Vector Word 32
  /-- The byte address of the instruction being executed (R24). -/
  pc     : Word
  status : Status
  /-- CycleCount (R32), a natural number that never wraps. -/
  cycle  : Nat
  /-- The Instruction Store `IMEM` (R34). -/
  imem   : Store
  /-- The Data Store `DMEM` (R34). -/
  dmem   : Store
deriving DecidableEq, Repr

/-- The machine's only stops. R160: "A step on a Halted or Faulted core does not exist" (U16: stuck). `step` raises both,
no instruction does. Safe: the hardware performs no step either (log entry 1). -/
inductive Fault where
  /-- A step asked of a Halted core (R165). Raised by `step`. Safe. -/
  | haltedCore
  /-- A step asked of a Faulted core, with its recorded error (R190). Raised by `step`. Safe. -/
  | faultedCore (cause : ErrorCause)
deriving DecidableEq, Repr

/-- Instructions without a meaning. -/
inductive Refusal where
  /-- An instruction the model has not reached; raised by an arm of `exec` only. Safe. No arm raises it now. -/
  | notModelled (mnemonic : String)
deriving DecidableEq, Repr

/-- R210: reset loads both stores and gives every other piece of state its value of R38 to R40. -/
def State.resetWith (imem dmem : Store) : State :=
  { regs   := Vector.replicate 32 Config.regReset
    pc     := Config.pcReset
    status := .running
    cycle  := 0
    imem   := imem
    dmem   := dmem }

/-- A store of the largest size the spec admits (decision D6), every byte 0. DESIGN CHOICE, log entries 2 and 3: IMEM_SIZE,
IMEM_INIT, DMEM_SIZE and DMEM_INIT are OPEN (R6), so `State.resetWith` takes any. -/
def Store.blank : Store := { size := Config.maxStoreSize, cells := [] }

/-- The machine right after reset (R38 to R41) with nothing loaded. -/
def State.reset : State := State.resetWith Store.blank Store.blank

end Sys2Proof.Machine
end

