-- ==== Sys2Proof/Machine/Ops.lean ====
section
/-! DEFINITION. The named operations over memory, stores and registers; the effect of one instruction and its commit; and
raising a fatal error, once for every error. -/

namespace Sys2Proof.Machine

/-! ### Memory as a canonical list -/

/-- What an unlisted address reads as. DESIGN CHOICE, log entry 3: a representation, since every byte of an image has a
defined value (R41) and a list holds any image. -/
def Memory.unlisted : Byte := 0#8

/-- The canonical form: addresses strictly rising, and no entry equal to what an unlisted address reads as. -/
abbrev Memory.wf (m : Memory) : Prop :=
  m.Pairwise (fun a b => a.1 < b.1) ∧ ∀ c ∈ m, c.2 ≠ Memory.unlisted

/-- One byte. -/
def Memory.read : Memory → Nat → Byte
  | [], _ => Memory.unlisted
  | (k, v) :: m, a => if k = a then v else Memory.read m a

/-- Overwrite one byte, keeping the canonical form. -/
def Memory.write : Memory → Nat → Byte → Memory
  | [], a, b => if b = Memory.unlisted then [] else [(a, b)]
  | (k, v) :: m, a, b =>
    if a < k then (if b = Memory.unlisted then (k, v) :: m else (a, b) :: (k, v) :: m)
    else if a = k then (if b = Memory.unlisted then m else (a, b) :: m)
    else (k, v) :: Memory.write m a b

/-- The contents given by bytes in address order from `base` up. -/
def Memory.ofBytes : Nat → List Byte → Memory
  | _, [] => []
  | base, b :: bs =>
    if b = Memory.unlisted then Memory.ofBytes (base + 1) bs else (base, b) :: Memory.ofBytes (base + 1) bs

/-! ### Stores -/

/-- A store whose list is canonical and lies inside its size. -/
abbrev Store.wf (st : Store) : Prop :=
  Memory.wf st.cells ∧ ∀ c ∈ st.cells, c.1 < st.size

/-- The byte at an address of a store. -/
def Store.readByte (st : Store) (a : Nat) : Byte := Memory.read st.cells a

/-- Overwrite one byte of a store. -/
def Store.writeByte (st : Store) (a : Nat) (b : Byte) : Store := { st with cells := Memory.write st.cells a b }

/-- The word of the four bytes from `a` up, byte `a` most significant (R52, R54). -/
def Store.readWord (st : Store) (a : Nat) : Word :=
  wordOfBytes (st.readByte a) (st.readByte (a + 1)) (st.readByte (a + 2)) (st.readByte (a + 3))

/-- Overwrite the four bytes from `a` up, bits 31 to 24 to byte `a` (R55). -/
def Store.writeWord (st : Store) (a : Nat) (v : Word) : Store :=
  (((st.writeByte a (wordByte v 0)).writeByte (a + 1) (wordByte v 1)).writeByte (a + 2) (wordByte v 2)).writeByte (a + 3)
    (wordByte v 3)

/-- R53, R56: an access of four bytes succeeds only when the address is a multiple of 4 and its bytes are inside the store. -/
def Store.accepts (st : Store) (a : Word) : Bool := a.toNat % 4 == 0 && decide (a.toNat + 4 ≤ st.size)

/-- A store holding the bytes of an image (R41). -/
def Store.ofBytes (image : List Byte) : Store := { size := image.length, cells := Memory.ofBytes 0 image }

/-- R68: all bytes of a store in address order. -/
def Store.dump (st : Store) : List Byte := (List.range st.size).map st.readByte

/-! ### Access primitives (R11) -/

/-- R52, R53: `IMemRead(a, 4)`. -/
def iMemRead (a : Word) (s : State) : Except ErrorCause Word :=
  if s.imem.accepts a then .ok (s.imem.readWord a.toNat) else .error (.outOfRange .fetch a)

/-- R54, R56: `MemRead(a, 4)`. -/
def memRead (a : Word) (s : State) : Except ErrorCause Word :=
  if s.dmem.accepts a then .ok (s.dmem.readWord a.toNat) else .error (.outOfRange .data a)

/-- R55, R56: the check of `MemWrite(a, 4, v)`. The write itself is requested and takes place at the commit (R164, R217). -/
def memWrite (a v : Word) (s : State) : Except ErrorCause (Word × Word) :=
  if s.dmem.accepts a then .ok (a, v) else .error (.outOfRange .data a)

/-- Stage 1 of the step (R164): the word at `pc`. -/
def fetch (s : State) : Except ErrorCause Word := iMemRead s.pc s

/-! ### Registers -/

/-- The value of register `r` (R20). Register 0 is read like any other (R21). -/
def State.reg (s : State) (r : RegIdx) : Word := s.regs[r.toNat]

/-- Register `r` holding `v` (R20). Register 0 is written like any other (R21). -/
def State.setReg (s : State) (r : RegIdx) (v : Word) : State := { s with regs := s.regs.set r.toNat v }

/-- R184: the register file's boundary, "defended against … regardless": an index outside 0 to 31 is a fatal error. -/
def checkIndex (i : Nat) : Except ErrorCause RegIdx :=
  if i < 32 then .ok (BitVec.ofNat 5 i) else .error .invalidRegisterIndex

/-- A read port of the register file: the value held before the step's write (R20, R217). -/
def readPort (i : Nat) (s : State) : Except ErrorCause Word :=
  match checkIndex i with
  | .ok r => .ok (s.reg r)
  | .error e => .error e

/-- The write port of the register file: the write is requested here and takes place at the commit (R217). -/
def writePort (i : Nat) (v : Word) : Except ErrorCause (RegIdx × Word) :=
  match checkIndex i with
  | .ok r => .ok (r, v)
  | .error e => .error e

/-! ### Effect and commit (R164 stages 4 and 5) -/

/-- What an instruction asks for: "register write (at most one), memory write (at most one), next pc" (R164). -/
structure Effect where
  regWrite : Option (RegIdx × Word)
  memWrite : Option (Word × Word)
  nextPc   : Word
deriving DecidableEq, Repr

/-- The register write of an effect. -/
def applyRegWrite (w : Option (RegIdx × Word)) (s : State) : State :=
  match w with
  | none => s
  | some (r, v) => s.setReg r v

/-- The memory write of an effect. -/
def applyMemWrite (w : Option (Word × Word)) (s : State) : State :=
  match w with
  | none => s
  | some (a, v) => { s with dmem := s.dmem.writeWord a.toNat v }

/-- R164 stage 5: the writes, the next pc and the cycle count, "all together". -/
def commit (e : Effect) (s : State) : State :=
  let s' := applyMemWrite e.memWrite (applyRegWrite e.regWrite s)
  { s' with pc := e.nextPc, cycle := s.cycle + 1 }

/-! ### Fatal errors (R189) -/

/-- Raising an error: "the whole effect of the step is status <- Faulted(E, info)" (R189). There is no handler, no vector and
no saved register, and no return from it (R190), so no operation stands beside this one. -/
def raise (e : ErrorCause) (s : State) : State := { s with status := .faulted e }

/-- The end of an instruction: its effect committed, or its first error raised. -/
def complete (r : Except ErrorCause Effect) (s : State) : Host.Outcome State Fault Refusal :=
  match r with
  | .ok e => .next (commit e s)
  | .error c => .next (raise c s)

end Sys2Proof.Machine
end

