-- ==== Sys2Proof/Machine/Operands.lean ====
section
/-! DEFINITION. The operand forms (R94, R140, R150): base plus immediate, the sequential and relative next pc, the link value,
and the Signed-Binary Codec of R10. -/

namespace Sys2Proof.Machine

/-- R57, R140: "base register + immediate", modulo 2^32 (decision D4, log entry 8). -/
def effectiveAddress (base imm : Word) : Word := base + imm

/-- R25: the next instruction in memory, modulo 2^32. -/
def sequentialPc (s : State) : Word := s.pc + 4#32

/-- R150: the target relative to the instruction's own address; the offset is already doubled (R154). -/
def relativePc (off : Word) (s : State) : Word := s.pc + off

/-- R153: "currentPC + 4 (return address)". -/
def linkValue (s : State) : Word := s.pc + 4#32

/-- R10: `signed_L`, the Signed-Binary Codec on a bit string of any length. If the leftmost bit is 0, the plain value. If it
is 1, minus the plain value of the complement plus one. -/
def codecDecode {n : Nat} (b : BitVec n) : Int :=
  if b.msb then -(((~~~b).toNat : Int) + 1) else (b.toNat : Int)

/-- R10: `encode(v)`, the 32-bit vector whose signed reading is `v`. -/
def codecEncode (v : Int) : Word := BitVec.ofInt 32 v

end Sys2Proof.Machine
end

