-- ==== Sys2Proof/Machine/Flags.lean ====
section
/-! DEFINITION. The ALU (R2, R126) and the branch conditions. The hardware has no flag and no condition code (R28): BEQ and
BNE compare two registers directly. -/

namespace Sys2Proof.Machine

/-- R121: the sum modulo 2^32. -/
def aluAdd (a b : Word) : Word := a + b

/-- R122: the difference modulo 2^32, the first operand the minuend (decision D15, log entry 13). -/
def aluSub (a b : Word) : Word := a - b

/-- R123: bitwise exclusive or. -/
def aluXor (a b : Word) : Word := a ^^^ b

/-- R124: bitwise inclusive or. -/
def aluOr (a b : Word) : Word := a ||| b

/-- R125: bitwise and. -/
def aluAnd (a b : Word) : Word := a &&& b

/-- R126: "Equality (BEQ, BNE) compares all 32 bits". -/
def aluEqual (a b : Word) : Bool := a == b

end Sys2Proof.Machine
end

