-- ==== Sys2Proof/Machine/ControlTransfer.lean ====
section
/-! DEFINITION. BEQ, BNE, JAL (43_branch_jump.md). A target is not checked when it is computed; a bad one raises at the next
fetch (R26, R150). -/

namespace Sys2Proof.Machine

/-- R151, R152: compare two registers; `pc + off` when the condition holds, else `pc + 4`. -/
def branch (cond : Word → Word → Bool) (rs1 rs2 : RegIdx) (off : Word) (s : State) : Except ErrorCause Effect := do
  let a ← readPort rs1.toNat s
  let b ← readPort rs2.toNat s
  .ok { regWrite := none, memWrite := none, nextPc := if cond a b then relativePc off s else sequentialPc s }

/-- R153: link value and target both use the pc of the JAL itself. -/
def jumpAndLink (rd : RegIdx) (off : Word) (s : State) : Except ErrorCause Effect := do
  let w ← writePort rd.toNat (linkValue s)
  .ok { regWrite := some w, memWrite := none, nextPc := relativePc off s }

/-- R151. -/
def execBeq (rs1 rs2 : RegIdx) (off : Word) (s : State) : Host.Outcome State Fault Refusal :=
  complete (branch aluEqual rs1 rs2 off s) s

/-- R152: "BNE is the logical complement". -/
def execBne (rs1 rs2 : RegIdx) (off : Word) (s : State) : Host.Outcome State Fault Refusal :=
  complete (branch (fun a b => !aluEqual a b) rs1 rs2 off s) s

/-- R153. -/
def execJal (rd : RegIdx) (off : Word) (s : State) : Host.Outcome State Fault Refusal :=
  complete (jumpAndLink rd off s) s

end Sys2Proof.Machine
end

