-- ==== Sys2Proof/Machine/Halt.lean ====
section
/-! DEFINITION. HALT (44_halt_step_loop.md). -/

namespace Sys2Proof.Machine

/-- R161, R163: HaltFlag becomes true and nothing else changes: not `pc`, not `cycle` (conflict C6, log entry 9). -/
def execHalt (s : State) : Host.Outcome State Fault Refusal := .next { s with status := .halted }

end Sys2Proof.Machine
end

