-- ==== Sys2Proof/Machine/ImmediateAlu.lean ====
section
/-! DEFINITION. ADDI, XORI, ORI, ANDI (41_alu_immediate.md). -/

namespace Sys2Proof.Machine

/-- R130: read `x[rs1]`, compute with the sign-extended immediate, write `x[rd]`, advance `pc` by 4. -/
def immediateAlu (op : Word → Word → Word) (rd rs1 : RegIdx) (imm : Word) (s : State) : Except ErrorCause Effect := do
  let a ← readPort rs1.toNat s
  let w ← writePort rd.toNat (op a imm)
  .ok { regWrite := some w, memWrite := none, nextPc := sequentialPc s }

/-- R131. -/
def execAddi (rd rs1 : RegIdx) (imm : Word) (s : State) : Host.Outcome State Fault Refusal :=
  complete (immediateAlu aluAdd rd rs1 imm s) s

/-- R132. -/
def execXori (rd rs1 : RegIdx) (imm : Word) (s : State) : Host.Outcome State Fault Refusal :=
  complete (immediateAlu aluXor rd rs1 imm s) s

/-- R133. -/
def execOri (rd rs1 : RegIdx) (imm : Word) (s : State) : Host.Outcome State Fault Refusal :=
  complete (immediateAlu aluOr rd rs1 imm s) s

/-- R134. -/
def execAndi (rd rs1 : RegIdx) (imm : Word) (s : State) : Host.Outcome State Fault Refusal :=
  complete (immediateAlu aluAnd rd rs1 imm s) s

end Sys2Proof.Machine
end

