-- ==== Sys2Proof/Machine/LoadStore.lean ====
section
/-! DEFINITION. LW and SW (42_load_store.md). The address is checked before any write, so an error leaves everything as it
was (R141, R142, R183). -/

namespace Sys2Proof.Machine

/-- R141: the loaded word goes to `x[rd]`. The address uses the old `x[rs1]` (R217). -/
def loadWord (rd rs1 : RegIdx) (imm : Word) (s : State) : Except ErrorCause Effect := do
  let base ← readPort rs1.toNat s
  let v ← memRead (effectiveAddress base imm) s
  let w ← writePort rd.toNat v
  .ok { regWrite := some w, memWrite := none, nextPc := sequentialPc s }

/-- R142: `x[rs2]` goes to the data store; no register is written. -/
def storeWord (rs1 rs2 : RegIdx) (imm : Word) (s : State) : Except ErrorCause Effect := do
  let base ← readPort rs1.toNat s
  let v ← readPort rs2.toNat s
  let w ← memWrite (effectiveAddress base imm) v s
  .ok { regWrite := none, memWrite := some w, nextPc := sequentialPc s }

/-- R141. -/
def execLw (rd rs1 : RegIdx) (imm : Word) (s : State) : Host.Outcome State Fault Refusal :=
  complete (loadWord rd rs1 imm s) s

/-- R142. -/
def execSw (rs1 rs2 : RegIdx) (imm : Word) (s : State) : Host.Outcome State Fault Refusal :=
  complete (storeWord rs1 rs2 imm s) s

end Sys2Proof.Machine
end

