-- ==== Sys2Proof/Machine/RegisterAlu.lean ====
section
/-! DEFINITION. ADD, SUB, XOR, OR, AND (40_alu_register.md). -/

namespace Sys2Proof.Machine

/-- R120: read `x[rs1]` and `x[rs2]`, compute, write `x[rd]`, advance `pc` by 4. -/
def registerAlu (op : Word → Word → Word) (rd rs1 rs2 : RegIdx) (s : State) : Except ErrorCause Effect := do
  let a ← readPort rs1.toNat s
  let b ← readPort rs2.toNat s
  let w ← writePort rd.toNat (op a b)
  .ok { regWrite := some w, memWrite := none, nextPc := sequentialPc s }

/-- R121. -/
def execAdd (rd rs1 rs2 : RegIdx) (s : State) : Host.Outcome State Fault Refusal :=
  complete (registerAlu aluAdd rd rs1 rs2 s) s

/-- R122. -/
def execSub (rd rs1 rs2 : RegIdx) (s : State) : Host.Outcome State Fault Refusal :=
  complete (registerAlu aluSub rd rs1 rs2 s) s

/-- R123. -/
def execXor (rd rs1 rs2 : RegIdx) (s : State) : Host.Outcome State Fault Refusal :=
  complete (registerAlu aluXor rd rs1 rs2 s) s

/-- R124. -/
def execOr (rd rs1 rs2 : RegIdx) (s : State) : Host.Outcome State Fault Refusal :=
  complete (registerAlu aluOr rd rs1 rs2 s) s

/-- R125. -/
def execAnd (rd rs1 rs2 : RegIdx) (s : State) : Host.Outcome State Fault Refusal :=
  complete (registerAlu aluAnd rd rs1 rs2 s) s

end Sys2Proof.Machine
end

