-- ==== Sys2Proof/Machine/Step.lean ====
section
/-! DEFINITION. The step (R164), and where the next instruction's word lies. -/

namespace Sys2Proof.Machine

/-- R164: fetch, decode, execute. "a step is possible only when status = Running" (R160): asked of a Halted or Faulted core
it is stuck (U16). An error is taken as a next state (R189, log entry 1). -/
def step (s : State) : Host.Outcome State Fault Refusal :=
  match s.status with
  | .halted => .fault .haltedCore
  | .faulted c => .fault (.faultedCore c)
  | .running =>
    match fetch s with
    | .error c => .next (raise c s)
    | .ok w =>
      match decodeWord w with
      | .error _ => .next (raise (.decodeError w) s)
      | .ok i => exec i s

/-- The state with the instruction word `w` of `nbits` bits at `pc` in the instruction store, standing for a load of the image
from outside (log entry 17). Where `pc` cannot be fetched from, there is nowhere to put it and nothing changes. -/
def State.withFetchWord (s : State) (nbits w : Nat) : State :=
  if s.imem.accepts s.pc then
    { s with imem := s.imem.writeWord s.pc.toNat (BitVec.ofNat 32 (w % 2 ^ nbits)) }
  else s

end Sys2Proof.Machine
end

