-- ==== Sys2Proof/Machine/Load.lean ====
section
/-! DEFINITION. The host's boundary of one core instance (R37): loading both images at reset, the step request, the error
number and the snapshot. The dump is `Store.dump` (Machine/Ops.lean). -/

namespace Sys2Proof.Machine

/-- The images one core instance is loaded with: `IMEM_INIT` and `DMEM_INIT` (R6, R41). -/
structure Images where
  imem : List Byte
  dmem : List Byte
deriving DecidableEq, Repr

/-- Why a launch is refused before the first step (R6, R212; U21: "refuse the launch"; decision D6, log entry 24). -/
inductive LoadRefusal where
  /-- The instruction image's "length must be a multiple of 4" and at least 4. -/
  | instructionImageLength
  /-- An image longer than 2^31 bytes. -/
  | imageTooLarge
  /-- A system of no core instance: `NCORES ≥ 1` (R6, R196). -/
  | noCoreInstance
deriving DecidableEq, Repr

/-- R210, R212: reset with both images loaded. -/
def launch (imemInit dmemInit : List Byte) : Except LoadRefusal State :=
  if imemInit.length % 4 ≠ 0 ∨ imemInit.length < 4 then .error .instructionImageLength
  else if Config.maxStoreSize < imemInit.length ∨ Config.maxStoreSize < dmemInit.length then .error .imageTooLarge
  else .ok (State.resetWith (Store.ofBytes imemInit) (Store.ofBytes dmemInit))

/-- R37, R160: a step request, "honoured only when status = Running"; otherwise there is no step and the state stays. -/
def request (s : State) : State :=
  match step s with
  | .next t => t
  | .fault _ => s
  | .refused _ => s

/-- R185: the numbers the spec assigns to the three kinds "where an interface needs a number" (decision D13, log entry 21).
Misaligned and out-of-bounds accesses, at either port, share 2. -/
def ErrorCause.code : ErrorCause → Nat
  | .decodeError _        => 1
  | .outOfRange _ _       => 2
  | .invalidRegisterIndex => 3

/-- R185: the error number of a core whatever its status; "0 = no error". -/
def Status.errorCode : Status → Nat
  | .running   => 0
  | .halted    => 0
  | .faulted c => c.code

/-- R198: "an ordered snapshot of all 32 register values and the cycle index" and "the committed PC and halt indicator". -/
structure Snapshot where
  cycle  : Nat
  regs   : Vector Word 32
  pc     : Word
  halted : Bool
deriving DecidableEq, Repr

/-- The snapshot of a state. -/
def State.snapshot (s : State) : Snapshot :=
  { cycle := s.cycle, regs := s.regs, pc := s.pc, halted := s.status == .halted }

/-- R162, R164: what the step presents. A completed Running to Running step presents a snapshot; the halting step, a faulting
step (decision D22) and a step that does not exist present none (U18, log entry 20). -/
def stepSnapshot (s : State) : Option Snapshot :=
  match step s with
  | .next t => if t.status = .running then some t.snapshot else none
  | .fault _ => none
  | .refused _ => none

end Sys2Proof.Machine
end

