-- ==== Sys2Proof/Machine/System.lean ====
section
/-! DEFINITION. Several core instances side by side (R67, R196, R197): launching them, stepping them in any interleaving, and
the fairness of an unending schedule (R220). Sharing the read-only instruction store is every instance holding an equal copy,
which nothing can change (log entry 19). -/

namespace Sys2Proof.Machine

/-- The core instances of a system. There is a first one, since `NCORES ≥ 1` (R6, R196). -/
structure System where
  first : State
  rest  : List State
deriving DecidableEq, Repr

/-- The instances in order, instance 0 first. -/
def System.cores (sys : System) : List State := sys.first :: sys.rest

/-- `NCORES` (R6: OPEN). -/
def System.ncores (sys : System) : Nat := sys.cores.length

/-- R67: all instances hold the same instruction store. -/
abbrev System.sharesImem (sys : System) : Prop := ∀ s ∈ sys.cores, ∀ t ∈ sys.cores, s.imem = t.imem

/-! ### Starting a system -/

/-- Every instance launched with its own images, or the refusal of the first one that cannot be. -/
def launchEach : List Images → Except LoadRefusal (List State)
  | [] => .ok []
  | p :: rest =>
    match launch p.imem p.dmem with
    | .error e => .error e
    | .ok s =>
      match launchEach rest with
      | .error e => .error e
      | .ok ss => .ok (s :: ss)

/-- R196: "All start from the same reset state … and differ only in their `DMEM_INIT` and … their `IMEM_INIT`". One instance
for each entry; there must be one (`NCORES ≥ 1`). -/
def System.launch (images : List Images) : Except LoadRefusal System :=
  match launchEach images with
  | .error e => .error e
  | .ok [] => .error .noCoreInstance
  | .ok (s :: ss) => .ok { first := s, rest := ss }

/-- R67, R196: a launch of instances that share one instruction store and differ in `DMEM_INIT` alone. -/
def System.launchShared (imemInit : List Byte) (dmemInits : List (List Byte)) : Except LoadRefusal System :=
  System.launch (dmemInits.map (fun d => { imem := imemInit, dmem := d }))

/-! ### Stepping it -/

/-- A step request of instance `i`; there is nothing to do where there is no such instance. -/
def System.stepCore (sys : System) : Nat → System
  | 0     => { sys with first := request sys.first }
  | i + 1 => { sys with rest := sys.rest.modify i request }

/-- R196: an interleaving, the list of the instances stepped in order. -/
def System.run (sys : System) : List Nat → System
  | [] => sys
  | i :: rest => System.run (sys.stepCore i) rest

/-- R197: the driving loop's exit condition, "no instance has status = Running" (decision D18). -/
def System.finished (sys : System) : Bool := sys.cores.all (fun s => s.status != .running)

/-- One instance after `n` step requests. -/
def requests : Nat → State → State
  | 0, s => s
  | n + 1, s => requests n (request s)

/-! ### Progress -/

/-- The system after the first `n` requests of an unending schedule, `schedule k` being the instance of request `k`. A schedule
is the host's, not a part of any state (log entry 27). -/
def System.after (sys : System) (schedule : Nat → Nat) : Nat → System
  | 0     => sys
  | n + 1 => (sys.after schedule n).stepCore (schedule n)

/-- R220: "the fairness assumption that a Running core is stepped again", at whatever time it is Running (log entry 27). -/
def System.Fair (sys : System) (schedule : Nat → Nat) : Prop :=
  ∀ (n i : Nat) (s : State), (sys.after schedule n).cores[i]? = some s → s.status = .running → ∃ m, n ≤ m ∧ schedule m = i

/-- R197: "repeatedly steps every still-running core instance", in turn. A request of a core that is not Running is no step
(R160), so it may stand in the rotation. -/
def System.roundRobin (sys : System) (n : Nat) : Nat := n % sys.ncores

end Sys2Proof.Machine
end

