-- ==== Sys2Proof/Safety.lean ====
section
/-! DEFINITION. The terms claims are stated in: what an instruction changed and what it left alone, which accesses are in
range, the invariant every step keeps, and what a status says of the state it stands in. -/

namespace Sys2Proof.Machine

/-! ### Frames -/

/-- Everything but the registers and the pc after a completed instruction: `cycle` counts it (R32), the status and both
stores are as before, byte by byte. -/
def StoresKept (s t : State) : Prop :=
  t.cycle = s.cycle + 1 ∧ t.status = s.status ∧ t.imem = s.imem ∧ t.dmem.size = s.dmem.size ∧
    ∀ a, t.dmem.readByte a = s.dmem.readByte a

/-- A completed instruction with destination `rd`: the pc is `npc`, every other register and all of memory are as before. -/
def OnlyRegister (rd : RegIdx) (npc : Word) (s t : State) : Prop :=
  (∀ r, r ≠ rd → t.reg r = s.reg r) ∧ t.pc = npc ∧ StoresKept s t

/-- A completed instruction that wrote `v` to `rd` and nothing else but the pc. -/
def WroteRegister (rd : RegIdx) (v npc : Word) (s t : State) : Prop :=
  t.reg rd = v ∧ OnlyRegister rd npc s t

/-- A completed instruction that wrote no register and no memory, only the pc. -/
def OnlyPc (npc : Word) (s t : State) : Prop :=
  (∀ r, t.reg r = s.reg r) ∧ t.pc = npc ∧ StoresKept s t

/-- A completed instruction that stored `v` at `a`, bits 31 to 24 at the lowest address, and changed no other byte and no
register. -/
def WroteWord (a v npc : Word) (s t : State) : Prop :=
  t.dmem.readByte a.toNat = v.extractLsb' 24 8 ∧
  t.dmem.readByte (a.toNat + 1) = v.extractLsb' 16 8 ∧
  t.dmem.readByte (a.toNat + 2) = v.extractLsb' 8 8 ∧
  t.dmem.readByte (a.toNat + 3) = v.extractLsb' 0 8 ∧
  (∀ b, b < a.toNat ∨ a.toNat + 4 ≤ b → t.dmem.readByte b = s.dmem.readByte b) ∧
  (∀ r, t.reg r = s.reg r) ∧ t.pc = npc ∧ t.cycle = s.cycle + 1 ∧ t.status = s.status ∧ t.imem = s.imem ∧
  t.dmem.size = s.dmem.size

/-- The machine with the same everything but status `faulted c`: "the whole effect of the step" that raises (R189). -/
def FaultedWith (c : ErrorCause) (s t : State) : Prop := t = { s with status := .faulted c }

/-! ### Accesses -/

/-- R53, R56: an aligned access of four bytes inside `size` bytes. -/
def InRange (size : Nat) (a : Word) : Prop := a.toNat % 4 = 0 ∧ a.toNat + 4 ≤ size

/-- The data address of an instruction, if it has one (R140: LW and SW only). -/
def dataAddress (s : State) : Instr → Option Word
  | .lw _ rs1 imm => some (effectiveAddress (s.reg rs1) imm)
  | .sw rs1 _ imm => some (effectiveAddress (s.reg rs1) imm)
  | .add _ _ _    => none
  | .sub _ _ _    => none
  | .xor _ _ _    => none
  | .or _ _ _     => none
  | .and _ _ _    => none
  | .addi _ _ _   => none
  | .xori _ _ _   => none
  | .ori _ _ _    => none
  | .andi _ _ _   => none
  | .beq _ _ _    => none
  | .bne _ _ _    => none
  | .jal _ _      => none
  | .halt         => none

/-- The instruction a step of this state executes, if fetch and decode succeed. -/
def current (s : State) : Option Instr :=
  match fetch s with
  | .error _ => none
  | .ok w =>
    match decodeWord w with
    | .error _ => none
    | .ok i => some i

/-- An instruction that neither transfers control nor halts: it goes on at the next word. -/
def isStraight (i : Instr) : Bool :=
  i.mnemonic != "BEQ" && i.mnemonic != "BNE" && i.mnemonic != "JAL" && i.mnemonic != "HALT"

/-- A straight instruction that makes no data access, so that it cannot raise (R120, R130). -/
def isPlainAlu (i : Instr) : Bool := isStraight i && i.mnemonic != "LW" && i.mnemonic != "SW"

/-! ### The invariant -/

/-- What every step keeps: both stores canonical and inside their sizes, the sizes within R6, and the pc even, since every
offset is (R92, R93; a pc that is 2 modulo 4 is legal until the next fetch, R26). -/
structure Inv (s : State) : Prop where
  imemWf   : Store.wf s.imem
  dmemWf   : Store.wf s.dmem
  imemSize : s.imem.size % 4 = 0 ∧ 4 ≤ s.imem.size ∧ s.imem.size ≤ Config.maxStoreSize
  dmemSize : s.dmem.size ≤ Config.maxStoreSize
  pcEven   : s.pc.toNat % 2 = 0

/-! ### What a status says -/

/-- A Halted or Faulted core stands at the instruction that stopped it, and its recorded information is that instruction's
(R163, R186, R189: "pc identifies the faulting instruction"; R184: no InvalidRegisterIndex). -/
def StatusExplained (s : State) : Prop :=
  match s.status with
  | .running => True
  | .halted => current s = some .halt
  | .faulted (.decodeError w) => fetch s = .ok w ∧ ∃ r, decodeWord w = .error r
  | .faulted (.outOfRange .fetch a) => a = s.pc ∧ ¬ InRange s.imem.size a
  | .faulted (.outOfRange .data a) => ∃ i, current s = some i ∧ dataAddress s i = some a ∧ ¬ InRange s.dmem.size a
  | .faulted .invalidRegisterIndex => False

end Sys2Proof.Machine
end

