-- ==== Sys2Proof/Certificates/Slice0/Obligations.lean ====
section
/-! DEFINITION. The statements for the provers. Each docstring names the rule of spec/ it formalises, and the log entry or the
spec's own mark where a clause rests on a choice. Encoding numbers are RV32I general knowledge in the spec (decision D14, log
entry 12), so a statement about them is derived. -/

section Statements
open Sys2Proof Sys2Proof.Machine

/-! ### Encoding -/

/-- O1. One word per format, written out in 95_test_vectors.md (V-DEC), decodes to the instruction it stands for. -/
def Obligations.SpecWordsDecode : Prop :=
  decodeTableWord 32 0x402081B3 = some (.sub 3 1 2) ∧
  decodeTableWord 32 0x80030293 = some (.addi 5 6 (-2048)) ∧
  decodeTableWord 32 0xFFC12203 = some (.lw 4 2 (-4)) ∧
  decodeTableWord 32 0x7E532E23 = some (.sw 6 5 2044) ∧
  decodeTableWord 32 0x000000E3 = some (.beq 0 0 2048) ∧
  decodeTableWord 32 0xFE009CE3 = some (.bne 1 0 (-8)) ∧
  decodeTableWord 32 0x001000EF = some (.jal 1 2048) ∧
  decodeTableWord 32 0x1234567F = some .halt ∧
  decodeTableWord 32 0x022081B3 = none

/-- O2. Decode and encode agree on every well-formed instruction, whatever follows it in memory (R83 to R88, R90 to R93). -/
def Obligations.DecodeOfEncode : Prop :=
  ∀ (i : Instr) (rest : List Byte), i.wellFormed = true → decode (encode i ++ rest) = .ok (i, rest)

/-- O3. Every decoded instruction is well-formed: its immediate or offset lies in the range R90 to R93 give and a branch or
jump offset is even. So its canonical word decodes to the same instruction. -/
def Obligations.DecodedInstructionsAreWellFormed : Prop :=
  ∀ (w : Word) (i : Instr), decodeWord w = .ok i → i.wellFormed = true ∧ decodeWord (encodeWord i) = .ok i

/-- O4. The decoder follows the opcode map of R104: "a word w selects the operation when w & mask = match". -/
def Obligations.DecoderFollowsOpcodeMap : Prop :=
  ∀ (w : Word) (row : OpcodeRow), row ∈ opcodeRows →
    (w &&& row.mask = row.pattern ↔ ∃ i, decodeWord w = .ok i ∧ i.mnemonic = row.mnemonic)

/-- O5. R104: "With these masks no word matches two rows". -/
def Obligations.NoWordMatchesTwoRows : Prop :=
  ∀ (w : Word) (r1 r2 : OpcodeRow), r1 ∈ opcodeRows → r2 ∈ opcodeRows →
    w &&& r1.mask = r1.pattern → w &&& r2.mask = r2.pattern → r1 = r2

/-- O6. The illegal words are exactly those R101 (a) to (d) lists, and a Running core that fetches one ends the step Faulted
with it and nothing else changed (R181). -/
def Obligations.IllegalWordsRaiseDecodeError : Prop :=
  (∀ w : Word, (∃ r, decodeWord w = .error r) ↔
    (w.extractLsb' 0 7 ∉ [0x33#7, 0x13#7, 0x03#7, 0x23#7, 0x63#7, 0x6F#7, 0x7F#7]) ∨
    (w.extractLsb' 0 7 = 0x33#7 ∧
      (w.extractLsb' 25 7, w.extractLsb' 12 3) ∉
        [(0x20#7, 0#3), (0#7, 0#3), (0#7, 4#3), (0#7, 6#3), (0#7, 7#3)]) ∨
    (w.extractLsb' 0 7 = 0x13#7 ∧ w.extractLsb' 12 3 ∈ [1#3, 2#3, 3#3, 5#3]) ∨
    (w.extractLsb' 0 7 = 0x63#7 ∧ w.extractLsb' 12 3 ∈ [2#3, 3#3, 4#3, 5#3, 6#3, 7#3])) ∧
  (∀ (s : State) (w : Word) (r : Reject), s.status = .running → fetch s = .ok w → decodeWord w = .error r →
    ∃ t, step s = .next t ∧ FaultedWith (.decodeError w) s t)

/-- O7. The bits the decoder ignores: funct3 under the LOAD and STORE opcodes (R96, R97) and `inst[31:7]` of a halt word
(R88). Every such word is a full-word LW, a full-word SW or HALT. -/
def Obligations.IgnoredBitsDoNotMatter : Prop :=
  (∀ (f3 : BitVec 3) (rd rs1 : RegIdx) (imm : Word), imm12Ok imm = true →
    decodeWord (encodeI 0x03#7 f3 rd rs1 imm) = .ok (.lw rd rs1 imm)) ∧
  (∀ (f3 : BitVec 3) (rs1 rs2 : RegIdx) (imm : Word), imm12Ok imm = true →
    decodeWord (encodeS f3 rs1 rs2 imm) = .ok (.sw rs1 rs2 imm)) ∧
  (∀ high : BitVec 25, decodeWord (high ++ 0x7F#7) = .ok .halt)

/-- O8. The two settings of RTYPE_LOOSE (R95): whatever the strict decoder accepts the loose one reads alike, so they agree on
every canonical word; the loose one reads SUB whatever funct3 is, and under another funct7 goes by funct3 alone. -/
def Obligations.LooseDecodingExtendsStrict : Prop :=
  (∀ (w : Word) (i : Instr), decodeWordWith false w = .ok i → decodeWordWith true w = .ok i) ∧
  (∀ (f3 : BitVec 3) (rd rs1 rs2 : RegIdx), decodeWordWith true (encodeR 0x20#7 f3 rd rs1 rs2) = .ok (.sub rd rs1 rs2)) ∧
  (∀ (f7 : BitVec 7) (f3 : BitVec 3) (rd rs1 rs2 : RegIdx), f7 ≠ 0x20#7 →
    (decodeWordWith true (encodeR f7 f3 rd rs1 rs2) = .ok (.add rd rs1 rs2) ↔ f3 = 0#3) ∧
    (decodeWordWith true (encodeR f7 f3 rd rs1 rs2) = .ok (.xor rd rs1 rs2) ↔ f3 = 4#3) ∧
    (decodeWordWith true (encodeR f7 f3 rd rs1 rs2) = .ok (.or rd rs1 rs2) ↔ f3 = 6#3) ∧
    (decodeWordWith true (encodeR f7 f3 rd rs1 rs2) = .ok (.and rd rs1 rs2) ↔ f3 = 7#3) ∧
    ((∃ r, decodeWordWith true (encodeR f7 f3 rd rs1 rs2) = .error r) ↔ f3 ∈ [1#3, 2#3, 3#3, 5#3]))

/-- O9. Immediates and offsets as integers: the I and S immediates are their 12-bit field read as signed (R90, R91); a B or J
offset is twice the signed value of its 12 or 20 encoded bits (R92, R93, R154). Bit 11 of the B offset is `inst[7]`
(decision D11, log entry 11). -/
def Obligations.OffsetsCountTwoByteUnits : Prop :=
  ∀ w : Word,
    (immI w).toInt = (w.extractLsb' 20 12).toInt ∧
    (immS w).toInt = (w.extractLsb' 25 7 ++ w.extractLsb' 7 5).toInt ∧
    (offB w).toInt = 2 * (w.extractLsb' 31 1 ++ w.extractLsb' 7 1 ++ w.extractLsb' 25 6 ++ w.extractLsb' 8 4).toInt ∧
    (offJ w).toInt = 2 * (w.extractLsb' 31 1 ++ w.extractLsb' 12 8 ++ w.extractLsb' 20 1 ++ w.extractLsb' 21 10).toInt

/-- O10. R10, the Signed-Binary Codec: on any length it is `unsigned(b) − 2^L` when the leftmost bit is 1 and `unsigned(b)`
when it is 0; "decode(encode(v)) == v for all i32 v"; `sext_N` keeps the signed value and replicates bit N − 1. -/
def Obligations.SignedCodecRoundTrip : Prop :=
  (∀ (n : Nat) (b : BitVec n), 0 < n →
    codecDecode b = if b.getLsbD (n - 1) then (b.toNat : Int) - 2 ^ n else (b.toNat : Int)) ∧
  (∀ v : Int, -2147483648 ≤ v → v ≤ 2147483647 → codecDecode (codecEncode v) = v) ∧
  (∀ w : Word, codecEncode (codecDecode w) = w) ∧
  (∀ (n : Nat) (b : BitVec n), 0 < n → n ≤ 32 →
    codecDecode (b.signExtend 32) = codecDecode b ∧
    (∀ k, k < 32 → (b.signExtend 32).getLsbD k = if k < n then b.getLsbD k else b.getLsbD (n - 1)))

/-! ### Reset and load -/

/-- O11. After reset every register is 0, pc is 0, the core is Running, cycle is 0 and the stores are the loaded ones (R38 to
R41). The zeros of x1 to x31 are decision D2 (log entry 6) and pc = 0 is decision D3 (log entry 7). -/
def Obligations.ResetLeaves : Prop :=
  ∀ imem dmem : Store,
    (∀ r, (State.resetWith imem dmem).reg r = 0#32) ∧ (State.resetWith imem dmem).pc = 0#32 ∧
    (State.resetWith imem dmem).status = .running ∧ (State.resetWith imem dmem).cycle = 0 ∧
    (State.resetWith imem dmem).imem = imem ∧ (State.resetWith imem dmem).dmem = dmem

/-- O12. The invariant holds right after reset. -/
def Obligations.ResetMeetsInv : Prop := Inv State.reset

/-- O13. Loading (R41, R68, R210, R212): a launch succeeds exactly when the instruction image's length is a multiple of 4, at
least 4, and both images have at most 2^31 bytes (R6, decision D6, log entry 24); the launched core meets the invariant and
both stores dump the loaded bytes in address order. -/
def Obligations.LaunchLoadsBothImages : Prop :=
  ∀ imemInit dmemInit : List Byte,
    ((∃ s, launch imemInit dmemInit = .ok s) ↔
      imemInit.length % 4 = 0 ∧ 4 ≤ imemInit.length ∧ imemInit.length ≤ 2147483648 ∧ dmemInit.length ≤ 2147483648) ∧
    (∀ s, launch imemInit dmemInit = .ok s →
      Inv s ∧ s.imem.dump = imemInit ∧ s.dmem.dump = dmemInit ∧ s.imem.size = imemInit.length ∧
      s.dmem.size = dmemInit.length ∧ s = State.resetWith s.imem s.dmem)

/-- O14. The first instruction after reset is the word at instruction address 0, the first byte most significant (R52, R211;
the byte order is derived, decision D1, log entry 10). -/
def Obligations.FirstInstructionIsAtAddressZero : Prop :=
  ∀ (b0 b1 b2 b3 : Byte) (more dmemInit : List Byte) (s : State),
    launch (b0 :: b1 :: b2 :: b3 :: more) dmemInit = .ok s →
    fetch s = .ok (b0 ++ b1 ++ b2 ++ b3) ∧
    ∀ i, decode [b0, b1, b2, b3] = .ok (i, []) → step s = exec i s

/-! ### Invariants and whole-machine rules -/

/-- O15. Every step keeps the invariant: both stores canonical and inside their sizes, sizes unchanged within R6, pc even. -/
def Obligations.StepKeepsInv : Prop :=
  ∀ s t : State, Inv s → step s = .next t → Inv t

/-- O16. A stopped core explains itself: after any step, Halted means pc is at a word that decodes to HALT (R163); Faulted
means pc and the recorded information identify the faulting instruction, with the cause that truly holds there (R181, R182,
R183, R186, R189); InvalidRegisterIndex is never the cause (R184). The recorded information is decision D13 (log entry 21). -/
def Obligations.StepExplainsStatus : Prop :=
  ∀ s t : State, step s = .next t → StatusExplained t

/-- O17. When the bytes at the program counter of a Running core decode to an instruction, the step is `exec` of it at this
very state, and the instruction is well-formed (R164). -/
def Obligations.StepRunsDecodedInstruction : Prop :=
  ∀ (s : State) (i : Instr), s.status = .running → InRange s.imem.size s.pc →
    decode [s.imem.readByte s.pc.toNat, s.imem.readByte (s.pc.toNat + 1), s.imem.readByte (s.pc.toNat + 2),
      s.imem.readByte (s.pc.toNat + 3)] = .ok (i, []) →
    step s = exec i s ∧ i.wellFormed = true

/-- O18. R53 and R182: a fetch succeeds exactly when pc is a multiple of 4 and its four bytes are inside the store; otherwise
the step raises OutOfRangeError with port fetch and address pc, no instruction is executed and nothing else changes. -/
def Obligations.FetchOutOfRange : Prop :=
  (∀ s : State, (∃ w, fetch s = .ok w) ↔ s.pc.toNat % 4 = 0 ∧ s.pc.toNat + 4 ≤ s.imem.size) ∧
  (∀ s : State, s.status = .running → ¬ (s.pc.toNat % 4 = 0 ∧ s.pc.toNat + 4 ≤ s.imem.size) →
    ∃ t, step s = .next t ∧ FaultedWith (.outOfRange .fetch s.pc) s t)

/-- O19. R56 and R183: an access at effective address `a` succeeds only when `a` is a multiple of 4 and its four bytes are
inside the data store; otherwise LW and SW raise OutOfRangeError with port data and address `a`, and nothing else changes: no
byte of the store, not `x[rd]`, not pc. No other instruction raises, and these raise nothing else. -/
def Obligations.DataAccessOutOfRange : Prop :=
  (∀ (s : State) (rd rs1 : RegIdx) (imm : Word), ¬ InRange s.dmem.size (s.reg rs1 + imm) →
    ∃ t, exec (.lw rd rs1 imm) s = .next t ∧ FaultedWith (.outOfRange .data (s.reg rs1 + imm)) s t) ∧
  (∀ (s : State) (rs1 rs2 : RegIdx) (imm : Word), ¬ InRange s.dmem.size (s.reg rs1 + imm) →
    ∃ t, exec (.sw rs1 rs2 imm) s = .next t ∧ FaultedWith (.outOfRange .data (s.reg rs1 + imm)) s t) ∧
  (∀ (i : Instr) (s t : State) (c : ErrorCause), s.status = .running → exec i s = .next t → t.status = .faulted c →
    ∃ a, ((∃ rd rs1 imm, i = .lw rd rs1 imm ∧ a = s.reg rs1 + imm) ∨ (∃ rs1 rs2 imm, i = .sw rs1 rs2 imm ∧ a = s.reg rs1 + imm)) ∧
      ¬ InRange s.dmem.size a ∧ c = .outOfRange .data a)

/-- O20. R189: when a step raises, "the whole effect of the step is status <- Faulted(E, info)". That the error is held as a
status value is decision D12 (log entry 1). -/
def Obligations.RaisingChangesOnlyTheStatus : Prop :=
  ∀ (s t : State) (c : ErrorCause), step s = .next t → t.status = .faulted c → FaultedWith c s t

/-- O21. R160, R165, R190: a Running core always steps; a Halted or Faulted core never does, and no number of step requests
changes it. That a step which does not exist is the model's Fault outcome is log entry 1. -/
def Obligations.OnlyRunningCoresStep : Prop :=
  (∀ s : State, s.status = .running ↔ ∃ t, step s = .next t) ∧
  (∀ s : State, s.status = .halted → step s = .fault .haltedCore) ∧
  (∀ (s : State) (c : ErrorCause), s.status = .faulted c → step s = .fault (.faultedCore c)) ∧
  (∀ (n : Nat) (s : State), s.status ≠ .running → requests n s = s)

/-- O22. R32, R194, R219: "every completed non-halting step adds exactly 1 to cycle, whatever the instruction"; a halting or
raising step does not count (decision D7, log entry 9). -/
def Obligations.CycleCountsCompletedSteps : Prop :=
  ∀ s t : State, step s = .next t → t.cycle = if t.status = .running then s.cycle + 1 else s.cycle

/-- O23. R25: the update of the program counter by each instruction. -/
def Obligations.ProgramCounterUpdate : Prop :=
  (∀ (i : Instr) (s t : State), s.status = .running → exec i s = .next t → t.status = .running →
    (∀ rs1 rs2 off, i = .beq rs1 rs2 off → t.pc = if s.reg rs1 = s.reg rs2 then s.pc + off else s.pc + 4#32) ∧
    (∀ rs1 rs2 off, i = .bne rs1 rs2 off → t.pc = if s.reg rs1 ≠ s.reg rs2 then s.pc + off else s.pc + 4#32) ∧
    (∀ rd off, i = .jal rd off → t.pc = s.pc + off) ∧
    (i.mnemonic ∈ ["ADD", "SUB", "XOR", "OR", "AND", "ADDI", "XORI", "ORI", "ANDI", "LW", "SW"] → t.pc = s.pc + 4#32)) ∧
  (∀ s t : State, exec .halt s = .next t → t.pc = s.pc) ∧
  (∀ (s t : State) (c : ErrorCause), step s = .next t → t.status = .faulted c → t.pc = s.pc) ∧
  (∀ (w : Word) (rs1 rs2 : RegIdx) (off : Word),
    decodeWord w = .ok (.beq rs1 rs2 off) ∨ decodeWord w = .ok (.bne rs1 rs2 off) → off = offB w) ∧
  (∀ (w : Word) (rd : RegIdx) (off : Word), decodeWord w = .ok (.jal rd off) → off = offJ w)

/-- O24. R22, which instructions touch the registers. Writes: ADD, SUB, XOR, OR, AND, ADDI, XORI, ORI, ANDI, LW and JAL write
`x[rd]` and no other; SW, BEQ, BNE and HALT none. Reads: an instruction's whole effect depends on no register outside the
sources the rule gives it (the loaded and computed value, the stored word, the next pc, the error). -/
def Obligations.RegistersReadAndWritten : Prop :=
  (∀ (i : Instr) (s t : State), exec i s = .next t → ∀ r, i.dest ≠ some r → t.reg r = s.reg r) ∧
  (∀ (i : Instr) (s t : State) (regs' : Vector Word 32), s.status = .running →
    (∀ r, r ∈ i.sources → ({ s with regs := regs' } : State).reg r = s.reg r) → exec i s = .next t →
    ∃ u, exec i { s with regs := regs' } = .next u ∧ u.pc = t.pc ∧ u.status = t.status ∧ u.cycle = t.cycle ∧
      u.imem = t.imem ∧ u.dmem = t.dmem ∧
      (∀ r, i.dest = some r → t.status = .running → u.reg r = t.reg r) ∧
      (∀ r, i.dest ≠ some r → u.reg r = ({ s with regs := regs' } : State).reg r))

/-- O25. R21: "Register 0 is an ordinary register. It is not hardwired to zero". A write to it is kept, a later read returns
it; `ADDI x0,x0,5` from x0 = 0 leaves 5; `JAL x0,off` leaves `pc + 4`. -/
def Obligations.RegisterZeroIsOrdinary : Prop :=
  (∀ (s : State) (v : Word), (s.setReg 0#5 v).reg 0#5 = v) ∧
  (∀ s : State, s.reg 0#5 = 0#32 → ∃ t, exec (.addi 0#5 0#5 5#32) s = .next t ∧ t.reg 0#5 = 5#32) ∧
  (∀ (s : State) (off : Word), ∃ t, exec (.jal 0#5 off) s = .next t ∧ t.reg 0#5 = s.pc + 4#32) ∧
  (∀ (s : State) (rs1 rs2 rd : RegIdx), ∃ t u, exec (.add 0#5 rs1 rs2) s = .next t ∧
    t.reg 0#5 = s.reg rs1 + s.reg rs2 ∧ exec (.addi rd 0#5 0#32) t = .next u ∧ u.reg rd = s.reg rs1 + s.reg rs2)

/-- O26. R50, two address spaces with no window from one into the other: no instruction writes IMEM; no instruction's effect
depends on IMEM; no fetch depends on DMEM; and only LW and SW depend on or change DMEM. -/
def Obligations.StoresAreSeparate : Prop :=
  (∀ (i : Instr) (s t : State), exec i s = .next t → t.imem = s.imem) ∧
  (∀ s t : State, step s = .next t → t.imem = s.imem) ∧
  (∀ (i : Instr) (s t : State) (m : Store), exec i s = .next t →
    exec i { s with imem := m } = .next { t with imem := m }) ∧
  (∀ (s : State) (m : Store), fetch { s with dmem := m } = fetch s) ∧
  (∀ (i : Instr) (s t : State) (m : Store), i.mnemonic ≠ "LW" → i.mnemonic ≠ "SW" → exec i s = .next t →
    t.dmem = s.dmem ∧ exec i { s with dmem := m } = .next { t with dmem := m })

/-- O27. R35: the data store is "mutated only through aligned 4-byte writes", and its size never changes. A step that changes
it executes a SW whose effective address is aligned and in range, and every byte outside those four reads as before. -/
def Obligations.DataStoreChangesOnlyByAlignedWords : Prop :=
  ∀ s t : State, Store.wf s.dmem → step s = .next t →
    t.dmem.size = s.dmem.size ∧
    (t.dmem = s.dmem ∨
      ∃ rs1 rs2 imm, current s = some (.sw rs1 rs2 imm) ∧
        (effectiveAddress (s.reg rs1) imm).toNat % 4 = 0 ∧
        (effectiveAddress (s.reg rs1) imm).toNat + 4 ≤ s.dmem.size ∧
        ∀ b, b < (effectiveAddress (s.reg rs1) imm).toNat ∨ (effectiveAddress (s.reg rs1) imm).toNat + 4 ≤ b →
          t.dmem.readByte b = s.dmem.readByte b)

/-- O28. R184: InvalidRegisterIndex is "defended against at the Register File boundary", and no step raises it. -/
def Obligations.InvalidRegisterIndexIsUnreachable : Prop :=
  (∀ (s : State) (n : Nat) (v : Word), 32 ≤ n →
    readPort n s = .error .invalidRegisterIndex ∧ writePort n v = .error .invalidRegisterIndex) ∧
  (∀ (s : State) (n : Nat) (v : Word) (h : n < 32),
    readPort n s = .ok s.regs[n] ∧ ∃ r, writePort n v = .ok (r, v) ∧ r.toNat = n) ∧
  (∀ s t : State, step s = .next t → t.status ≠ .faulted .invalidRegisterIndex)

/-- O29. R198: after every completed Running to Running step the core presents all 32 registers, the cycle index, the committed
pc and the halt indicator; otherwise the model presents nothing (decisions D7 and D22, log entry 20). -/
def Obligations.SnapshotAfterCompletedSteps : Prop :=
  ∀ (s : State) (p : Snapshot), stepSnapshot s = some p ↔
    ∃ t, step s = .next t ∧ t.status = .running ∧ p.cycle = s.cycle + 1 ∧ p.regs = t.regs ∧ p.pc = t.pc ∧ p.halted = false

/-! ### Results and frames, one statement per shape -/

/-- O30. ADD and SUB (R121, R122, R126): the result is the exact integer result of the signed operands taken modulo 2^32, with
no trap and no flag; `x[rs1]` is the minuend (decision D15, log entry 13). The frame is `OnlyRegister`. -/
def Obligations.AddAndSubWrap : Prop :=
  ∀ (rd rs1 rs2 : RegIdx) (s : State),
    (∃ t, exec (.add rd rs1 rs2) s = .next t ∧
      WroteRegister rd (BitVec.ofInt 32 ((s.reg rs1).toInt + (s.reg rs2).toInt)) (s.pc + 4#32) s t) ∧
    (∃ t, exec (.sub rd rs1 rs2) s = .next t ∧
      WroteRegister rd (BitVec.ofInt 32 ((s.reg rs1).toInt - (s.reg rs2).toInt)) (s.pc + 4#32) s t)

/-- O31. XOR, OR and AND (R123 to R126): they act on each of the 32 bit positions independently. -/
def Obligations.BitwiseRegisterOperations : Prop :=
  ∀ (rd rs1 rs2 : RegIdx) (s : State),
    (∃ t, exec (.xor rd rs1 rs2) s = .next t ∧ OnlyRegister rd (s.pc + 4#32) s t ∧
      ∀ k, k < 32 → (t.reg rd).getLsbD k = Bool.xor ((s.reg rs1).getLsbD k) ((s.reg rs2).getLsbD k)) ∧
    (∃ t, exec (.or rd rs1 rs2) s = .next t ∧ OnlyRegister rd (s.pc + 4#32) s t ∧
      ∀ k, k < 32 → (t.reg rd).getLsbD k = ((s.reg rs1).getLsbD k || (s.reg rs2).getLsbD k)) ∧
    (∃ t, exec (.and rd rs1 rs2) s = .next t ∧ OnlyRegister rd (s.pc + 4#32) s t ∧
      ∀ k, k < 32 → (t.reg rd).getLsbD k = ((s.reg rs1).getLsbD k && (s.reg rs2).getLsbD k))

/-- O32. R130: ADDI, XORI, ORI and ANDI compute with `x[rs1]` and the sign-extended 12-bit field, for the logical operations
too (their upper 20 bits are ones for a negative immediate), write `x[rd]`, advance pc by 4, touch no memory and never raise. -/
def Obligations.ImmediateArithmetic : Prop :=
  (∀ (w : Word) (rd rs1 : RegIdx) (imm : Word),
    decodeWord w = .ok (.addi rd rs1 imm) ∨ decodeWord w = .ok (.xori rd rs1 imm) ∨
      decodeWord w = .ok (.ori rd rs1 imm) ∨ decodeWord w = .ok (.andi rd rs1 imm) →
    imm = (w.extractLsb' 20 12).signExtend 32 ∧ -2048 ≤ imm.toInt ∧ imm.toInt ≤ 2047 ∧
    (imm.toInt < 0 → imm.extractLsb' 12 20 = BitVec.allOnes 20)) ∧
  (∀ (rd rs1 : RegIdx) (imm : Word) (s : State),
    (∃ t, exec (.addi rd rs1 imm) s = .next t ∧ WroteRegister rd (s.reg rs1 + imm) (s.pc + 4#32) s t) ∧
    (∃ t, exec (.xori rd rs1 imm) s = .next t ∧ WroteRegister rd (s.reg rs1 ^^^ imm) (s.pc + 4#32) s t) ∧
    (∃ t, exec (.ori rd rs1 imm) s = .next t ∧ WroteRegister rd (s.reg rs1 ||| imm) (s.pc + 4#32) s t) ∧
    (∃ t, exec (.andi rd rs1 imm) s = .next t ∧ WroteRegister rd (s.reg rs1 &&& imm) (s.pc + 4#32) s t))

/-- O33. LW (R54, R140, R141): from an aligned address inside the data store the four bytes, lowest address most significant
(decision D1, log entry 10), go to `x[rd]`; nothing else changes but pc and cycle. -/
def Obligations.LoadWordReadsFourBytes : Prop :=
  ∀ (rd rs1 : RegIdx) (imm : Word) (s : State), InRange s.dmem.size (s.reg rs1 + imm) →
    ∃ t, exec (.lw rd rs1 imm) s = .next t ∧
      WroteRegister rd
        (s.dmem.readByte (s.reg rs1 + imm).toNat ++ s.dmem.readByte ((s.reg rs1 + imm).toNat + 1) ++
          s.dmem.readByte ((s.reg rs1 + imm).toNat + 2) ++ s.dmem.readByte ((s.reg rs1 + imm).toNat + 3))
        (s.pc + 4#32) s t

/-- O34. SW (R55, R140, R142): at an aligned address inside the data store `x[rs2]` overwrites exactly four bytes, bits 31 to
24 at the lowest address (decision D1, log entry 10); no register changes. The store is canonical, which StepKeepsInv keeps. -/
def Obligations.StoreWordWritesFourBytes : Prop :=
  ∀ (rs1 rs2 : RegIdx) (imm : Word) (s : State), Store.wf s.dmem → InRange s.dmem.size (s.reg rs1 + imm) →
    ∃ t, exec (.sw rs1 rs2 imm) s = .next t ∧
      WroteWord (effectiveAddress (s.reg rs1) imm) (s.reg rs2) (s.pc + 4#32) s t

/-- O35. R143: "Writing a value to an address via SW and then reading the same address via LW returns the original value",
provided "no other SW to that address comes between": the data store in which the LW runs has the size and the four bytes the
SW left, whatever its other bytes are. And no instruction but SW changes the data store. That the base is `x[rs1]` and the
stored value `x[rs2]` is decision D15 (log entry 13). -/
def Obligations.LoadReturnsStoredValue : Prop :=
  (∀ (s t u : State) (rs1 rs2 rd base : RegIdx) (imm imm' : Word), Store.wf s.dmem → s.status = .running →
    exec (.sw rs1 rs2 imm) s = .next t → t.status = .running →
    u.dmem.size = t.dmem.size → u.reg base + imm' = s.reg rs1 + imm →
    (∀ k, k < 4 → u.dmem.readByte ((s.reg rs1 + imm).toNat + k) = t.dmem.readByte ((s.reg rs1 + imm).toNat + k)) →
    ∃ v, exec (.lw rd base imm') u = .next v ∧ v.reg rd = s.reg rs2 ∧ v.status = u.status) ∧
  (∀ (i : Instr) (s t : State), (∀ rs1 rs2 imm, i ≠ .sw rs1 rs2 imm) → exec i s = .next t → t.dmem = s.dmem)

/-- O36. BEQ and BNE (R151, R152): the next pc, and nothing else but cycle changes. Comparison is of all 32 bits. -/
def Obligations.BranchesMoveOnlyThePc : Prop :=
  ∀ (rs1 rs2 : RegIdx) (off : Word) (s : State),
    (∃ t, exec (.beq rs1 rs2 off) s = .next t ∧
      OnlyPc (if (∀ k, k < 32 → (s.reg rs1).getLsbD k = (s.reg rs2).getLsbD k) then s.pc + off else s.pc + 4#32) s t) ∧
    (∃ t, exec (.bne rs1 rs2 off) s = .next t ∧
      OnlyPc (if (∀ k, k < 32 → (s.reg rs1).getLsbD k = (s.reg rs2).getLsbD k) then s.pc + 4#32 else s.pc + off) s t)

/-- O37. JAL (R153): `x[rd]` receives `pc + 4` and pc becomes `pc + off`, both from the pc of the JAL itself. -/
def Obligations.JumpAndLinkResult : Prop :=
  ∀ (rd : RegIdx) (off : Word) (s : State),
    ∃ t, exec (.jal rd off) s = .next t ∧ WroteRegister rd (s.pc + 4#32) (s.pc + off) s t

/-- O38. HALT (R161, R163): from any word with the halt opcode, and as an instruction, the status becomes Halted and no
register, no memory byte, not pc and not cycle changes. The opcode's value is decision D9 (log entry 4). -/
def Obligations.HaltChangesOnlyTheStatus : Prop :=
  (∀ s : State, exec .halt s = .next { s with status := .halted }) ∧
  (∀ (s : State) (w : Word), s.status = .running → fetch s = .ok w → w &&& 0x7F#32 = 0x7F#32 →
    step s = .next { s with status := .halted })

/-- O39. R26, R150: a taken branch or a JAL completes whatever its target is, with the link value written; a bad target raises
at the next fetch, with that address, and a good one is fetched next. -/
def Obligations.BadTargetRaisesAtNextFetch : Prop :=
  ∀ (i : Instr) (off : Word) (s : State), s.status = .running →
    (∃ rd, i = .jal rd off) ∨ (∃ rs1 rs2, i = .beq rs1 rs2 off ∧ s.reg rs1 = s.reg rs2) ∨
      (∃ rs1 rs2, i = .bne rs1 rs2 off ∧ s.reg rs1 ≠ s.reg rs2) →
    ∃ t, exec i s = .next t ∧ t.status = .running ∧ t.pc = s.pc + off ∧
      (∀ rd, i = .jal rd off → t.reg rd = s.pc + 4#32) ∧
      (InRange s.imem.size (s.pc + off) → fetch t = .ok (s.imem.readWord (s.pc + off).toNat)) ∧
      (¬ InRange s.imem.size (s.pc + off) →
        ∃ u, step t = .next u ∧ FaultedWith (.outOfRange .fetch (s.pc + off)) t u)

/-! ### Memory -/

/-- O40. Canonical memories that read alike are the same list, so equal memories are equal data (log entry 3). -/
def Obligations.CanonicalMemoriesAreDeterminedByReads : Prop :=
  ∀ m1 m2 : Memory, Memory.wf m1 → Memory.wf m2 → (∀ a, Memory.read m1 a = Memory.read m2 a) → m1 = m2

/-- O41. R57: the 32-bit effective address and the sum in unbounded integers pass the range check alike for every store of at
most 2^31 − 2048 bytes. For a store of 2^31 bytes they do not, although R57 derives it (log entry 8): a base near −2^31 with
a negative immediate wraps to an address below 2^31. -/
def Obligations.EffectiveAddressReadings : Prop :=
  (∀ (st : Store) (base imm : Word), imm12Ok imm = true → st.size ≤ 2147481600 →
    (st.accepts (effectiveAddress base imm) = true ↔
      0 ≤ base.toInt + imm.toInt ∧ (base.toInt + imm.toInt) % 4 = 0 ∧ base.toInt + imm.toInt + 4 ≤ (st.size : Int))) ∧
  (∃ (st : Store) (base imm : Word), imm12Ok imm = true ∧ st.size = 2147483648 ∧
    st.accepts (effectiveAddress base imm) = true ∧ base.toInt + imm.toInt < 0)

/-! ### Runs and several instances -/

/-- O42. R167: in a straight line of `n` instructions from address 0 followed by HALT, a core still Running after `n` steps has
cycle n and pc 4n, and the next step is the halting step, which changes nothing else. If none of the `n` accesses data, the
core does get there. That the halting step does not count is decision D7 (log entry 9). -/
def Obligations.HaltTerminatesStraightLine : Prop :=
  ∀ (s : State) (n : Nat), s.status = .running → s.pc = 0#32 → s.cycle = 0 →
    4 * n + 4 ≤ s.imem.size → s.imem.size ≤ 2147483648 →
    (∀ k, k < n → ∃ i, decodeWord (s.imem.readWord (4 * k)) = .ok i ∧ isStraight i = true) →
    decodeWord (s.imem.readWord (4 * n)) = .ok .halt →
    (∀ t : State, Host.Core.run core n s = .next t → t.status = .running →
      t.cycle = n ∧ t.pc.toNat = 4 * n ∧ step t = .next { t with status := .halted }) ∧
    ((∀ k, k < n → ∃ i, decodeWord (s.imem.readWord (4 * k)) = .ok i ∧ isPlainAlu i = true) →
      ∃ t : State, Host.Core.run core n s = .next t ∧ t.status = .running)

/-- O43. R67: several instances are "logically independent state machines". Under every interleaving the state of an instance
is the one its own step requests give it, so two interleavings that step each instance equally often end alike; and a shared
instruction store stays shared. That a system is a list of states with equal copies of a shared store is log entry 19. -/
def Obligations.InstancesAreIndependent : Prop :=
  (∀ (sys : System) (schedule : List Nat) (i : Nat),
    (sys.run schedule).cores[i]? = (sys.cores[i]?).map (requests (schedule.count i))) ∧
  (∀ (sys : System) (a b : List Nat), (∀ i, a.count i = b.count i) → sys.run a = sys.run b) ∧
  (∀ (sys : System) (schedule : List Nat), sys.sharesImem → (sys.run schedule).sharesImem)

/-- O44. R185: after any step the error number is 1 exactly when the fetched word was illegal, 2 exactly when the fetch or the
data access was misaligned or out of bounds, 0 exactly when neither was, and never 3 (R184). The numbers are decision D13 (log
entry 21). -/
def Obligations.ErrorCodesNameTheError : Prop :=
  ∀ s t : State, step s = .next t →
    (t.status.errorCode = 0 ↔ ∃ i, current s = some i ∧ ∀ a, dataAddress s i = some a → InRange s.dmem.size a) ∧
    (t.status.errorCode = 1 ↔ ∃ w r, fetch s = .ok w ∧ decodeWord w = .error r) ∧
    (t.status.errorCode = 2 ↔ ¬ InRange s.imem.size s.pc ∨
      ∃ i a, current s = some i ∧ dataAddress s i = some a ∧ ¬ InRange s.dmem.size a) ∧
    t.status.errorCode ≠ 3

/-- O45. R196, R6: a launch of a system succeeds exactly when there is an instance to launch and every instance's images are
legal (log entry 24); every instance then is in the reset state (R38 to R41) of its own images; instances launched with one
instruction image share it; and no schedule changes how many there are, at least one. That one illegal pair of images refuses
the whole system, and that sharing a store is holding equal copies of it, are the model's choices of log entry 19. -/
def Obligations.LaunchedInstancesDifferOnlyInImages : Prop :=
  (∀ images : List Images, (∃ sys, System.launch images = .ok sys) ↔
    images ≠ [] ∧ ∀ p ∈ images, p.imem.length % 4 = 0 ∧ 4 ≤ p.imem.length ∧ p.imem.length ≤ 2147483648 ∧
      p.dmem.length ≤ 2147483648) ∧
  (∀ (images : List Images) (sys : System), System.launch images = .ok sys →
    sys.ncores = images.length ∧
    ∀ (k : Nat) (p : Images), images[k]? = some p →
      sys.cores[k]? = some (State.resetWith (Store.ofBytes p.imem) (Store.ofBytes p.dmem))) ∧
  (∀ (imemInit : List Byte) (dmemInits : List (List Byte)) (sys : System),
    System.launchShared imemInit dmemInits = .ok sys → sys.sharesImem ∧ sys.ncores = dmemInits.length) ∧
  (∀ (sys : System) (schedule : List Nat), 1 ≤ sys.ncores ∧ (sys.run schedule).ncores = sys.ncores)

/-- O46. R220, R197: under a fair schedule every instance gets as far as any number of its own step requests takes it, so if
each instance's own requests stop it the driving loop ends; and stepping the instances in turn is fair. That a schedule is
an unending sequence of instances, fair to the Running ones, is log entry 27. -/
def Obligations.FairSchedulesMakeProgress : Prop :=
  (∀ (sys : System) (schedule : Nat → Nat), sys.Fair schedule →
    ∀ i k : Nat, ∃ n : Nat, (sys.after schedule n).cores[i]? = (sys.cores[i]?).map (requests k)) ∧
  (∀ (sys : System) (schedule : Nat → Nat), sys.Fair schedule →
    (∀ s ∈ sys.cores, ∃ k, (requests k s).status ≠ .running) → ∃ n : Nat, (sys.after schedule n).finished = true) ∧
  (∀ sys : System, sys.Fair sys.roundRobin)

end Statements
end

