-- ==== Sys2Proof/Laws/Decode.lean ====
section
/-! SUPPORT. The fields of an encoded word, and everything the decoder can answer. -/

namespace Sys2Proof

/-- The decoder's setting is the strict one (R95, decision D10). -/
theorem decodeWord_eq (w : Word) : decodeWord w = decodeWordWith false w := rfl

/-! ### Fields of encoded words (R83 to R87) -/

section R
variable (f7 : BitVec 7) (f3 : BitVec 3) (rd rs1 rs2 : RegIdx)

@[simp] theorem fieldOpcode_encodeR : fieldOpcode (encodeR f7 f3 rd rs1 rs2) = opReg := by
  apply BitVec.eq_of_getLsbD_eq; intro i hi
  interval_cases i <;> simp +decide only [fieldOpcode, encodeR, BitVec.getLsbD_append, BitVec.getLsbD_extractLsb', ↓reduceIte, decide_true, Bool.true_and]
@[simp] theorem fieldRd_encodeR : fieldRd (encodeR f7 f3 rd rs1 rs2) = rd := by
  apply BitVec.eq_of_getLsbD_eq; intro i hi
  interval_cases i <;> simp +decide only [fieldRd, encodeR, BitVec.getLsbD_append, BitVec.getLsbD_extractLsb', ↓reduceIte, decide_true, Bool.true_and]
@[simp] theorem fieldFunct3_encodeR : fieldFunct3 (encodeR f7 f3 rd rs1 rs2) = f3 := by
  apply BitVec.eq_of_getLsbD_eq; intro i hi
  interval_cases i <;> simp +decide only [fieldFunct3, encodeR, BitVec.getLsbD_append, BitVec.getLsbD_extractLsb', ↓reduceIte, decide_true, Bool.true_and]
@[simp] theorem fieldRs1_encodeR : fieldRs1 (encodeR f7 f3 rd rs1 rs2) = rs1 := by
  apply BitVec.eq_of_getLsbD_eq; intro i hi
  interval_cases i <;> simp +decide only [fieldRs1, encodeR, BitVec.getLsbD_append, BitVec.getLsbD_extractLsb', ↓reduceIte, decide_true, Bool.true_and]
@[simp] theorem fieldRs2_encodeR : fieldRs2 (encodeR f7 f3 rd rs1 rs2) = rs2 := by
  apply BitVec.eq_of_getLsbD_eq; intro i hi
  interval_cases i <;> simp +decide only [fieldRs2, encodeR, BitVec.getLsbD_append, BitVec.getLsbD_extractLsb', ↓reduceIte, decide_true, Bool.true_and]
@[simp] theorem fieldFunct7_encodeR : fieldFunct7 (encodeR f7 f3 rd rs1 rs2) = f7 := by
  apply BitVec.eq_of_getLsbD_eq; intro i hi
  interval_cases i <;> simp +decide only [fieldFunct7, encodeR, BitVec.getLsbD_append, BitVec.getLsbD_extractLsb', ↓reduceIte, decide_true, Bool.true_and]
end R

section I
variable (op : BitVec 7) (f3 : BitVec 3) (rd rs1 : RegIdx) (imm : Word)

@[simp] theorem fieldOpcode_encodeI : fieldOpcode (encodeI op f3 rd rs1 imm) = op := by
  apply BitVec.eq_of_getLsbD_eq; intro i hi
  interval_cases i <;> simp +decide only [fieldOpcode, encodeI, BitVec.getLsbD_append, BitVec.getLsbD_extractLsb', ↓reduceIte, decide_true, Bool.true_and]
@[simp] theorem fieldRd_encodeI : fieldRd (encodeI op f3 rd rs1 imm) = rd := by
  apply BitVec.eq_of_getLsbD_eq; intro i hi
  interval_cases i <;> simp +decide only [fieldRd, encodeI, BitVec.getLsbD_append, BitVec.getLsbD_extractLsb', ↓reduceIte, decide_true, Bool.true_and]
@[simp] theorem fieldFunct3_encodeI : fieldFunct3 (encodeI op f3 rd rs1 imm) = f3 := by
  apply BitVec.eq_of_getLsbD_eq; intro i hi
  interval_cases i <;> simp +decide only [fieldFunct3, encodeI, BitVec.getLsbD_append, BitVec.getLsbD_extractLsb', ↓reduceIte, decide_true, Bool.true_and]
@[simp] theorem fieldRs1_encodeI : fieldRs1 (encodeI op f3 rd rs1 imm) = rs1 := by
  apply BitVec.eq_of_getLsbD_eq; intro i hi
  interval_cases i <;> simp +decide only [fieldRs1, encodeI, BitVec.getLsbD_append, BitVec.getLsbD_extractLsb', ↓reduceIte, decide_true, Bool.true_and]
theorem immField_encodeI : (encodeI op f3 rd rs1 imm).extractLsb' 20 12 = imm.setWidth 12 := by
  apply BitVec.eq_of_getLsbD_eq; intro i hi
  interval_cases i <;> simp +decide only [encodeI, BitVec.getLsbD_append, BitVec.getLsbD_extractLsb', BitVec.getLsbD_setWidth, ↓reduceIte, decide_true, Bool.true_and]
end I

section S
variable (f3 : BitVec 3) (rs1 rs2 : RegIdx) (imm : Word)

@[simp] theorem fieldOpcode_encodeS : fieldOpcode (encodeS f3 rs1 rs2 imm) = opStore := by
  apply BitVec.eq_of_getLsbD_eq; intro i hi
  interval_cases i <;> simp +decide only [fieldOpcode, encodeS, BitVec.getLsbD_append, BitVec.getLsbD_extractLsb', ↓reduceIte, decide_true, Bool.true_and]
@[simp] theorem fieldRs1_encodeS : fieldRs1 (encodeS f3 rs1 rs2 imm) = rs1 := by
  apply BitVec.eq_of_getLsbD_eq; intro i hi
  interval_cases i <;> simp +decide only [fieldRs1, encodeS, BitVec.getLsbD_append, BitVec.getLsbD_extractLsb', ↓reduceIte, decide_true, Bool.true_and]
@[simp] theorem fieldRs2_encodeS : fieldRs2 (encodeS f3 rs1 rs2 imm) = rs2 := by
  apply BitVec.eq_of_getLsbD_eq; intro i hi
  interval_cases i <;> simp +decide only [fieldRs2, encodeS, BitVec.getLsbD_append, BitVec.getLsbD_extractLsb', ↓reduceIte, decide_true, Bool.true_and]
theorem immField_encodeS : (encodeS f3 rs1 rs2 imm).extractLsb' 25 7 ++ (encodeS f3 rs1 rs2 imm).extractLsb' 7 5
    = imm.setWidth 12 := by
  apply BitVec.eq_of_getLsbD_eq; intro i hi
  interval_cases i <;> simp +decide only [encodeS, BitVec.getLsbD_append, BitVec.getLsbD_extractLsb', BitVec.getLsbD_setWidth, ↓reduceIte, decide_true, Bool.true_and]
end S

section B
variable (f3 : BitVec 3) (rs1 rs2 : RegIdx) (off : Word)

@[simp] theorem fieldOpcode_encodeB : fieldOpcode (encodeB f3 rs1 rs2 off) = opBranch := by
  apply BitVec.eq_of_getLsbD_eq; intro i hi
  interval_cases i <;> simp +decide only [fieldOpcode, encodeB, BitVec.getLsbD_append, BitVec.getLsbD_extractLsb', ↓reduceIte, decide_true, Bool.true_and]
@[simp] theorem fieldFunct3_encodeB : fieldFunct3 (encodeB f3 rs1 rs2 off) = f3 := by
  apply BitVec.eq_of_getLsbD_eq; intro i hi
  interval_cases i <;> simp +decide only [fieldFunct3, encodeB, BitVec.getLsbD_append, BitVec.getLsbD_extractLsb', ↓reduceIte, decide_true, Bool.true_and]
@[simp] theorem fieldRs1_encodeB : fieldRs1 (encodeB f3 rs1 rs2 off) = rs1 := by
  apply BitVec.eq_of_getLsbD_eq; intro i hi
  interval_cases i <;> simp +decide only [fieldRs1, encodeB, BitVec.getLsbD_append, BitVec.getLsbD_extractLsb', ↓reduceIte, decide_true, Bool.true_and]
@[simp] theorem fieldRs2_encodeB : fieldRs2 (encodeB f3 rs1 rs2 off) = rs2 := by
  apply BitVec.eq_of_getLsbD_eq; intro i hi
  interval_cases i <;> simp +decide only [fieldRs2, encodeB, BitVec.getLsbD_append, BitVec.getLsbD_extractLsb', ↓reduceIte, decide_true, Bool.true_and]
end B

section J
variable (rd : RegIdx) (off : Word)

@[simp] theorem fieldOpcode_encodeJ : fieldOpcode (encodeJ rd off) = opJal := by
  apply BitVec.eq_of_getLsbD_eq; intro i hi
  interval_cases i <;> simp +decide only [fieldOpcode, encodeJ, BitVec.getLsbD_append, BitVec.getLsbD_extractLsb', ↓reduceIte, decide_true, Bool.true_and]
@[simp] theorem fieldRd_encodeJ : fieldRd (encodeJ rd off) = rd := by
  apply BitVec.eq_of_getLsbD_eq; intro i hi
  interval_cases i <;> simp +decide only [fieldRd, encodeJ, BitVec.getLsbD_append, BitVec.getLsbD_extractLsb', ↓reduceIte, decide_true, Bool.true_and]
end J

@[simp] theorem fieldOpcode_encodeHalt : fieldOpcode encodeHalt = opHalt := by decide

/-! ### What the decoder can answer -/

/-- Every way a word decodes (R81, R95 to R100), read as the fields it needs. -/
theorem decodeWord_ok {w : Word} {i : Instr} (h : decodeWord w = .ok i) :
    (fieldOpcode w = opReg ∧ fieldFunct7 w = funct7Sub ∧ fieldFunct3 w = funct3Add ∧ i = .sub (fieldRd w) (fieldRs1 w) (fieldRs2 w)) ∨
    (fieldOpcode w = opReg ∧ fieldFunct7 w = funct7Zero ∧ fieldFunct3 w = funct3Add ∧ i = .add (fieldRd w) (fieldRs1 w) (fieldRs2 w)) ∨
    (fieldOpcode w = opReg ∧ fieldFunct7 w = funct7Zero ∧ fieldFunct3 w = funct3Xor ∧ i = .xor (fieldRd w) (fieldRs1 w) (fieldRs2 w)) ∨
    (fieldOpcode w = opReg ∧ fieldFunct7 w = funct7Zero ∧ fieldFunct3 w = funct3Or ∧ i = .or (fieldRd w) (fieldRs1 w) (fieldRs2 w)) ∨
    (fieldOpcode w = opReg ∧ fieldFunct7 w = funct7Zero ∧ fieldFunct3 w = funct3And ∧ i = .and (fieldRd w) (fieldRs1 w) (fieldRs2 w)) ∨
    (fieldOpcode w = opImm ∧ fieldFunct3 w = funct3Add ∧ i = .addi (fieldRd w) (fieldRs1 w) (immI w)) ∨
    (fieldOpcode w = opImm ∧ fieldFunct3 w = funct3Xor ∧ i = .xori (fieldRd w) (fieldRs1 w) (immI w)) ∨
    (fieldOpcode w = opImm ∧ fieldFunct3 w = funct3Or ∧ i = .ori (fieldRd w) (fieldRs1 w) (immI w)) ∨
    (fieldOpcode w = opImm ∧ fieldFunct3 w = funct3And ∧ i = .andi (fieldRd w) (fieldRs1 w) (immI w)) ∨
    (fieldOpcode w = opLoad ∧ i = .lw (fieldRd w) (fieldRs1 w) (immI w)) ∨
    (fieldOpcode w = opStore ∧ i = .sw (fieldRs1 w) (fieldRs2 w) (immS w)) ∨
    (fieldOpcode w = opBranch ∧ fieldFunct3 w = funct3Beq ∧ i = .beq (fieldRs1 w) (fieldRs2 w) (offB w)) ∨
    (fieldOpcode w = opBranch ∧ fieldFunct3 w = funct3Bne ∧ i = .bne (fieldRs1 w) (fieldRs2 w) (offB w)) ∨
    (fieldOpcode w = opJal ∧ i = .jal (fieldRd w) (offJ w)) ∨
    (fieldOpcode w = opHalt ∧ i = .halt) := by
  simp only [decodeWord_eq, decodeWordWith, decodeRegStrict, decodeImm, decodeBranch, Bool.false_eq_true, if_false] at h
  repeat' split at h
  all_goals first
    | (injection h with h; subst h; simp_all)
    | cases h

/-! ### Immediates of decoded words -/

/-- Sign extension and back. -/
theorem setWidth_signExtend {n : Nat} (hn : n ≤ 32) (b : BitVec n) : (b.signExtend 32).setWidth n = b := by
  apply BitVec.eq_of_getLsbD_eq; intro i hi
  rw [BitVec.getLsbD_setWidth, BitVec.getLsbD_signExtend]
  simp [hi, show i < 32 by omega]

theorem fitsSigned_signExtend {n : Nat} (hn : n ≤ 32) (b : BitVec n) : fitsSigned n (b.signExtend 32) = true := by
  simp only [fitsSigned, setWidth_signExtend hn, beq_self_eq_true]

/-- An appended zero bit makes the sign extension even. -/
theorem evenOffset_append_zero {n : Nat} (b : BitVec n) : evenOffset ((b ++ 0#1).signExtend 32) = true := by
  simp only [evenOffset, BitVec.getLsbD_signExtend, BitVec.getLsbD_append]
  simp

theorem imm12Ok_immI (w : Word) : imm12Ok (immI w) = true := fitsSigned_signExtend (by decide) _
theorem imm12Ok_immS (w : Word) : imm12Ok (immS w) = true := fitsSigned_signExtend (n := 7 + 5) (by decide) _

theorem offBOk_offB (w : Word) : offBOk (offB w) = true := by
  rw [offBOk, Bool.and_eq_true]
  exact ⟨fitsSigned_signExtend (n := 1 + 1 + 6 + 4 + 1) (by decide) _, evenOffset_append_zero _⟩

theorem offJOk_offJ (w : Word) : offJOk (offJ w) = true := by
  rw [offJOk, Bool.and_eq_true]
  exact ⟨fitsSigned_signExtend (n := 1 + 8 + 1 + 10 + 1) (by decide) _, evenOffset_append_zero _⟩

/-- A value that fits is the extension of its own low bits. -/
theorem signExtend_of_fits {n : Nat} {v : Word} (h : fitsSigned n v = true) : (v.setWidth n).signExtend 32 = v := by
  simpa [fitsSigned] using h

/-- The immediate and offset of an encoded word, for the formats that carry one. -/
theorem immI_encodeI {op : BitVec 7} {f3 : BitVec 3} {rd rs1 : RegIdx} {imm : Word} (h : imm12Ok imm = true) : immI (encodeI op f3 rd rs1 imm) = imm := by
  rw [immI, immField_encodeI, signExtend_of_fits h]

theorem immS_encodeS {f3 : BitVec 3} {rs1 rs2 : RegIdx} {imm : Word} (h : imm12Ok imm = true) : immS (encodeS f3 rs1 rs2 imm) = imm := by
  rw [immS, immField_encodeS, signExtend_of_fits h]

theorem offB_encodeB {f3 : BitVec 3} {rs1 rs2 : RegIdx} {off : Word} (h : offBOk off = true) : offB (encodeB f3 rs1 rs2 off) = off := by
  rw [offBOk, Bool.and_eq_true] at h
  have e : (encodeB f3 rs1 rs2 off).extractLsb' 31 1 ++ (encodeB f3 rs1 rs2 off).extractLsb' 7 1 ++ (encodeB f3 rs1 rs2 off).extractLsb' 25 6 ++ (encodeB f3 rs1 rs2 off).extractLsb' 8 4 ++ 0#1 = off.setWidth 13 := by
    have h0 : off.getLsbD 0 = false := by simpa [evenOffset] using h.2
    apply BitVec.eq_of_getLsbD_eq; intro i hi
    interval_cases i <;> simp +decide only [encodeB, BitVec.getLsbD_append, BitVec.getLsbD_extractLsb', ↓reduceIte, decide_true, Bool.true_and, BitVec.getLsbD_setWidth, h0]
  rw [offB, e, signExtend_of_fits h.1]

theorem offJ_encodeJ {rd : RegIdx} {off : Word} (h : offJOk off = true) : offJ (encodeJ rd off) = off := by
  rw [offJOk, Bool.and_eq_true] at h
  have e : (encodeJ rd off).extractLsb' 31 1 ++ (encodeJ rd off).extractLsb' 12 8 ++ (encodeJ rd off).extractLsb' 20 1 ++ (encodeJ rd off).extractLsb' 21 10 ++ 0#1 = off.setWidth 21 := by
    have h0 : off.getLsbD 0 = false := by simpa [evenOffset] using h.2
    apply BitVec.eq_of_getLsbD_eq; intro i hi
    interval_cases i <;> simp +decide only [encodeJ, BitVec.getLsbD_append, BitVec.getLsbD_extractLsb', ↓reduceIte, decide_true, Bool.true_and, BitVec.getLsbD_setWidth, h0]
  rw [offJ, e, signExtend_of_fits h.1]

/-- An appended zero bit doubles the signed value (R154). -/
theorem toInt_append_zero {n : Nat} (b : BitVec n) : (b ++ 0#1).toInt = 2 * b.toInt := by
  have h : (b ++ 0#1).toNat = 2 * b.toNat := by simp [BitVec.toNat_append, Nat.shiftLeft_eq]; omega
  have hb := b.isLt
  rw [BitVec.toInt_eq_toNat_cond, BitVec.toInt_eq_toNat_cond, h, Nat.pow_succ]
  split <;> split <;> push_cast <;> omega

/-! ### Masks (R104) -/

/-- A masked comparison, bit by bit. -/
theorem mask_eq_iff (w p m : Word) (hp : p &&& m = p) :
    w &&& m = p ↔ ∀ i, i < 32 → m.getLsbD i = true → w.getLsbD i = p.getLsbD i := by
  constructor
  · intro h i hi hm
    have := congrArg (fun v => v.getLsbD i) h
    simpa only [BitVec.getLsbD_and, hm, Bool.and_true] using this
  · intro h
    rw [← hp]
    apply BitVec.eq_of_getLsbD_eq
    intro i hi
    simp only [BitVec.getLsbD_and]
    cases hm : m.getLsbD i
    · simp
    · simp [h i hi hm]

/-- Equal fields, bit by bit. -/
theorem field_eq_iff (w p : Word) (a n : Nat) :
    w.extractLsb' a n = p.extractLsb' a n ↔ ∀ k, k < n → w.getLsbD (a + k) = p.getLsbD (a + k) := by
  constructor
  · intro h k hk
    have := congrArg (fun v => v.getLsbD k) h
    simpa only [BitVec.getLsbD_extractLsb', hk, decide_true, Bool.true_and] using this
  · intro h
    apply BitVec.eq_of_getLsbD_eq
    intro k hk
    simp only [BitVec.getLsbD_extractLsb', hk, h k hk]

/-- The mask of LW, SW, JAL and HALT (R104) compares the opcode. -/
theorem mask_opcode (w p : Word) (hp : p &&& 0x7F#32 = p) : w &&& 0x7F#32 = p ↔ fieldOpcode w = fieldOpcode p := by
  rw [mask_eq_iff w p _ hp, fieldOpcode, fieldOpcode, field_eq_iff]
  constructor
  · intro h k hk
    exact h (0 + k) (by omega) (by interval_cases k <;> decide)
  · intro h i hi hm
    have : i < 7 := by
      by_contra hc
      interval_cases i <;> first | omega | (revert hm; decide)
    simpa using h i this

/-- The mask of the I-arithmetic and B rows (R104) compares opcode and funct3. -/
theorem mask_funct3 (w p : Word) (hp : p &&& 0x707F#32 = p) :
    w &&& 0x707F#32 = p ↔ fieldOpcode w = fieldOpcode p ∧ fieldFunct3 w = fieldFunct3 p := by
  rw [mask_eq_iff w p _ hp, fieldOpcode, fieldOpcode, fieldFunct3, fieldFunct3, field_eq_iff, field_eq_iff]
  constructor
  · intro h
    exact ⟨fun k hk => h (0 + k) (by omega) (by interval_cases k <;> decide),
      fun k hk => h (12 + k) (by omega) (by interval_cases k <;> decide)⟩
  · rintro ⟨h1, h2⟩ i hi hm
    have : i < 7 ∨ (12 ≤ i ∧ i < 15) := by
      by_contra hc
      interval_cases i <;> first | omega | (revert hm; decide)
    rcases this with h | h
    · simpa using h1 i h
    · simpa [show 12 + (i - 12) = i by omega] using h2 (i - 12) (by omega)

/-- The mask of the R rows (R104) compares opcode, funct3 and funct7. -/
theorem mask_register (w p : Word) (hp : p &&& 0xFE00707F#32 = p) :
    w &&& 0xFE00707F#32 = p ↔ fieldOpcode w = fieldOpcode p ∧ fieldFunct3 w = fieldFunct3 p ∧ fieldFunct7 w = fieldFunct7 p := by
  rw [mask_eq_iff w p _ hp, fieldOpcode, fieldOpcode, fieldFunct3, fieldFunct3, fieldFunct7, fieldFunct7, field_eq_iff, field_eq_iff, field_eq_iff]
  constructor
  · intro h
    exact ⟨fun k hk => h (0 + k) (by omega) (by interval_cases k <;> decide),
      fun k hk => h (12 + k) (by omega) (by interval_cases k <;> decide),
      fun k hk => h (25 + k) (by omega) (by interval_cases k <;> decide)⟩
  · rintro ⟨h1, h2, h3⟩ i hi hm
    have : i < 7 ∨ (12 ≤ i ∧ i < 15) ∨ 25 ≤ i := by
      by_contra hc
      interval_cases i <;> first | omega | (revert hm; decide)
    rcases this with h | h | h
    · simpa using h1 i h
    · simpa [show 12 + (i - 12) = i by omega] using h2 (i - 12) (by omega)
    · simpa [show 25 + (i - 25) = i by omega] using h3 (i - 25) (by omega)

end Sys2Proof
end

