-- ==== Sys2Proof/Laws/Memory.lean ====
section
/-! SUPPORT. Memory and stores: read after write, and every operation keeps the canonical form. -/

namespace Sys2Proof.Machine

/-- Read after write, at the same address and at any other. -/
theorem read_write {m : Memory} (h : Memory.wf m) (a b : Nat) (v : Byte) :
    Memory.read (Memory.write m a v) b = if b = a then v else Memory.read m b := by
  induction m with
  | nil =>
    simp only [Memory.write]
    split
    · simp_all [Memory.read]
    · simp only [Memory.read, eq_comm]
  | cons c m ih =>
    obtain ⟨k, x⟩ := c
    have hk : ∀ d ∈ m, k < d.1 := (List.pairwise_cons.1 h.1).1
    have hm : Memory.wf m := ⟨(List.pairwise_cons.1 h.1).2, fun d hd => h.2 d (List.mem_cons_of_mem _ hd)⟩
    have low : ∀ (l : Memory) (n : Nat), (∀ d ∈ l, n < d.1) → Memory.read l n = Memory.unlisted := by
      intro l n hl
      induction l with
      | nil => rfl
      | cons d l il =>
        have := hl d (List.mem_cons_self ..)
        simp only [Memory.read]
        rw [if_neg (by omega), il fun e he => hl e (List.mem_cons_of_mem _ he)]
    simp only [Memory.write]
    by_cases h1 : a < k
    · rw [if_pos h1]
      by_cases hv : v = Memory.unlisted
      · rw [if_pos hv]
        by_cases hb : b = a
        · subst hb
          rw [if_pos rfl, hv]
          apply low
          intro d hd
          rcases List.mem_cons.1 hd with rfl | hd
          · exact h1
          · exact Nat.lt_trans h1 (hk d hd)
        · rw [if_neg hb]
      · rw [if_neg hv]
        simp only [Memory.read, eq_comm]
    · rw [if_neg h1]
      by_cases h2 : a = k
      · subst h2
        rw [if_pos rfl]
        by_cases hv : v = Memory.unlisted
        · rw [if_pos hv]
          by_cases hb : b = a
          · subst hb
            rw [if_pos rfl, hv, low m b hk]
          · rw [if_neg hb]
            simp only [Memory.read]
            rw [if_neg (Ne.symm hb)]
        · rw [if_neg hv]
          simp only [Memory.read]
          by_cases hb : b = a
          · simp [hb]
          · simp [hb, Ne.symm hb]
      · rw [if_neg h2]
        simp only [Memory.read]
        by_cases hb : k = b
        · subst hb
          simp [Ne.symm h2]
        · rw [if_neg hb, if_neg hb, ih hm]

/-- The addresses listed after a write. -/
theorem mem_write {m : Memory} {a : Nat} {v : Byte} {c : Host.Cell} (h : c ∈ Memory.write m a v) :
    c = (a, v) ∧ v ≠ Memory.unlisted ∨ c ∈ m := by
  induction m with
  | nil =>
    simp only [Memory.write] at h
    split at h
    · simp at h
    · exact .inl ⟨by simpa using h, ‹_›⟩
  | cons d m ih =>
    obtain ⟨k, x⟩ := d
    simp only [Memory.write] at h
    split at h
    · split at h
      · exact .inr h
      · rcases List.mem_cons.1 h with h | h
        · exact .inl ⟨h, ‹_›⟩
        · exact .inr h
    · split at h
      · split at h
        · exact .inr (List.mem_cons_of_mem _ h)
        · rcases List.mem_cons.1 h with h | h
          · exact .inl ⟨h, ‹_›⟩
          · exact .inr (List.mem_cons_of_mem _ h)
      · rcases List.mem_cons.1 h with h | h
        · exact .inr (h ▸ List.mem_cons_self ..)
        · rcases ih h with h | h
          · exact .inl h
          · exact .inr (List.mem_cons_of_mem _ h)

/-- A write keeps the canonical form. -/
theorem write_wf {m : Memory} (h : Memory.wf m) (a : Nat) (v : Byte) : Memory.wf (Memory.write m a v) := by
  refine ⟨?_, fun c hc => ?_⟩
  · induction m with
    | nil =>
      simp only [Memory.write]
      split <;> simp
    | cons d m ih =>
      obtain ⟨k, x⟩ := d
      obtain ⟨hk, hp⟩ := List.pairwise_cons.1 h.1
      have hm : Memory.wf m := ⟨hp, fun d hd => h.2 d (List.mem_cons_of_mem _ hd)⟩
      simp only [Memory.write]
      split
      · split
        · exact h.1
        · rename_i h1 _
          refine List.pairwise_cons.2 ⟨fun c hc => ?_, h.1⟩
          rcases List.mem_cons.1 hc with rfl | hc
          · exact h1
          · exact Nat.lt_trans h1 (hk c hc)
      · split
        · rename_i h2
          subst h2
          split
          · exact hp
          · exact List.pairwise_cons.2 ⟨hk, hp⟩
        · refine List.pairwise_cons.2 ⟨fun c hc => ?_, ih hm⟩
          rcases mem_write hc with ⟨rfl, -⟩ | hc
          · show k < a
            omega
          · exact hk c hc
  · rcases mem_write hc with ⟨rfl, hv⟩ | hc
    · exact hv
    · exact h.2 c hc

/-- Every address of a loaded image lies between its base and its end. -/
theorem mem_ofBytes {base : Nat} {bs : List Byte} {c : Host.Cell} (h : c ∈ Memory.ofBytes base bs) :
    base ≤ c.1 ∧ c.1 < base + bs.length ∧ c.2 ≠ Memory.unlisted := by
  induction bs generalizing base with
  | nil => simp [Memory.ofBytes] at h
  | cons b bs ih =>
    simp only [Memory.ofBytes] at h
    split at h
    · have := ih h
      simp only [List.length_cons]
      exact ⟨by omega, by omega, this.2.2⟩
    · rcases List.mem_cons.1 h with rfl | h
      · exact ⟨Nat.le_refl _, by simp, ‹_›⟩
      · have := ih h
        simp only [List.length_cons]
        exact ⟨by omega, by omega, this.2.2⟩

/-- A loaded image is canonical. -/
theorem ofBytes_wf (base : Nat) (bs : List Byte) : Memory.wf (Memory.ofBytes base bs) := by
  refine ⟨?_, fun c hc => (mem_ofBytes hc).2.2⟩
  induction bs generalizing base with
  | nil => simp [Memory.ofBytes]
  | cons b bs ih =>
    simp only [Memory.ofBytes]
    split
    · exact ih _
    · refine List.pairwise_cons.2 ⟨fun c hc => ?_, ih _⟩
      have := (mem_ofBytes hc).1
      show base < c.1
      omega

/-- The bytes of a loaded image read back. -/
theorem read_ofBytes (base : Nat) (bs : List Byte) (k : Nat) (hk : k < bs.length) :
    Memory.read (Memory.ofBytes base bs) (base + k) = bs[k] := by
  induction bs generalizing base k with
  | nil => simp at hk
  | cons b bs ih =>
    have low : ∀ c ∈ Memory.ofBytes (base+1) bs, c.1 ≠ base := fun c hc => by have := (mem_ofBytes hc).1; omega
    have none : ∀ (m : Memory) (a : Nat), (∀ c ∈ m, c.1 ≠ a) → Memory.read m a = Memory.unlisted := by
      intro m a
      induction m with
      | nil => intro _; rfl
      | cons c m im => intro h; simp only [Memory.read]; rw [if_neg (h c (by simp)), im fun c hc => h c (by simp [hc])]
    simp only [Memory.ofBytes]
    cases k with
    | zero =>
      split
      · rename_i e; simp [none _ base low, e]
      · simp [Memory.read]
    | succ k =>
      have := ih (base + 1) k (by simpa using hk)
      rw [show base + 1 + k = base + (k+1) by omega] at this
      split
      · simpa using this
      · simp only [Memory.read]; rw [if_neg (by omega)]; simpa using this

@[simp] theorem writeByte_size (st : Store) (a : Nat) (b : Byte) : (st.writeByte a b).size = st.size := rfl
@[simp] theorem writeWord_size (st : Store) (a : Nat) (v : Word) : (st.writeWord a v).size = st.size := rfl
@[simp] theorem writeByte_cells (st : Store) (a : Nat) (b : Byte) :
    (st.writeByte a b).cells = Memory.write st.cells a b := rfl

/-- Writing a byte inside a store keeps the store well-formed. -/
theorem writeByte_wf {st : Store} (h : Store.wf st) {a : Nat} (ha : a < st.size) (b : Byte) :
    Store.wf (st.writeByte a b) := by
  refine ⟨write_wf h.1 a b, fun c hc => ?_⟩
  rcases mem_write hc with ⟨rfl, -⟩ | hc
  · exact ha
  · exact h.2 c hc

/-- Writing a word inside a store keeps the store well-formed. -/
theorem writeWord_wf {st : Store} (h : Store.wf st) {a : Nat} (ha : a + 4 ≤ st.size) (v : Word) :
    Store.wf (st.writeWord a v) := by
  have h0 := writeByte_wf h (a := a) (by omega) (wordByte v 0)
  have h1 := writeByte_wf h0 (a := a + 1) (by simp; omega) (wordByte v 1)
  have h2 := writeByte_wf h1 (a := a + 2) (by simp; omega) (wordByte v 2)
  exact writeByte_wf h2 (a := a + 3) (by simp; omega) (wordByte v 3)

/-- A loaded store is well-formed. -/
theorem store_ofBytes_wf (image : List Byte) : Store.wf (Store.ofBytes image) :=
  ⟨ofBytes_wf 0 image, fun c hc => by
    have := (mem_ofBytes (base := 0) hc).2.1
    simpa [Store.ofBytes] using this⟩

theorem readByte_writeByte {st : Store} (h : Memory.wf st.cells) (a b : Nat) (v : Byte) :
    (st.writeByte a v).readByte b = if b = a then v else st.readByte b :=
  read_write h a b v

/-- What each byte of a store is after a word is written (R55: "changes no other byte"). -/
theorem readByte_writeWord {st : Store} (h : Memory.wf st.cells) (a b : Nat) (v : Word) :
    (st.writeWord a v).readByte b =
      if b = a + 3 then wordByte v 3 else if b = a + 2 then wordByte v 2
      else if b = a + 1 then wordByte v 1 else if b = a then wordByte v 0 else st.readByte b := by
  have h0 := write_wf h a (wordByte v 0)
  have h1 := write_wf h0 (a + 1) (wordByte v 1)
  have h2 := write_wf h1 (a + 2) (wordByte v 2)
  unfold Store.writeWord
  rw [readByte_writeByte h2, readByte_writeByte h1, readByte_writeByte h0, readByte_writeByte h]

/-- The bytes of a word, put together again. -/
theorem wordOfBytes_wordByte (v : Word) :
    wordOfBytes (wordByte v 0) (wordByte v 1) (wordByte v 2) (wordByte v 3) = v := by
  apply BitVec.eq_of_getLsbD_eq
  intro i hi
  simp only [wordOfBytes, wordByte, BitVec.getLsbD_append, BitVec.getLsbD_extractLsb']
  by_cases h0 : i < 8
  · simp [h0]
  · by_cases h1 : i < 16
    · simp [h0, show i - 8 < 8 by omega, show 8 + (i - 8) = i by omega]
    · by_cases h2 : i < 24
      · simp [h0, show ¬ i - 8 < 8 by omega, show i - 8 - 8 < 8 by omega, show 16 + (i - 8 - 8) = i by omega]
      · simp [h0, show ¬ i - 8 < 8 by omega, show ¬ i - 8 - 8 < 8 by omega, show i - 8 - 8 - 8 < 8 by omega,
          show 24 + (i - 8 - 8 - 8) = i by omega]

/-- Reading a word back after writing it. -/
theorem readWord_writeWord {st : Store} (h : Memory.wf st.cells) (a : Nat) (v : Word) :
    (st.writeWord a v).readWord a = v := by
  unfold Store.readWord
  simp only [readByte_writeWord h]
  simpa using wordOfBytes_wordByte v

/-- R53, R56: when a store accepts an access. -/
theorem accepts_iff (st : Store) (a : Word) : st.accepts a = true ↔ a.toNat % 4 = 0 ∧ a.toNat + 4 ≤ st.size := by
  simp [Store.accepts]

end Sys2Proof.Machine
end

