-- ==== Sys2Proof/Laws/State.lean ====
section
/-! SUPPORT. One lemma per field per update, and reading a register after writing one. -/

namespace Sys2Proof.Machine

@[simp] theorem setReg_pc (s : State) (r : RegIdx) (v : Word) : (s.setReg r v).pc = s.pc := rfl
@[simp] theorem setReg_status (s : State) (r : RegIdx) (v : Word) : (s.setReg r v).status = s.status := rfl
@[simp] theorem setReg_cycle (s : State) (r : RegIdx) (v : Word) : (s.setReg r v).cycle = s.cycle := rfl
@[simp] theorem setReg_imem (s : State) (r : RegIdx) (v : Word) : (s.setReg r v).imem = s.imem := rfl
@[simp] theorem setReg_dmem (s : State) (r : RegIdx) (v : Word) : (s.setReg r v).dmem = s.dmem := rfl

/-- R20, R21: what a register holds after a write to one of them, register 0 included. -/
theorem reg_setReg (s : State) (r q : RegIdx) (v : Word) : (s.setReg r v).reg q = if q = r then v else s.reg q := by
  simp only [State.reg, State.setReg, Vector.getElem_set]
  by_cases h : q = r
  · simp [h]
  · rw [if_neg (fun e => h (BitVec.eq_of_toNat_eq e.symm)), if_neg h]

@[simp] theorem reg_setReg_same (s : State) (r : RegIdx) (v : Word) : (s.setReg r v).reg r = v := by simp [reg_setReg]

theorem reg_setReg_other (s : State) {r q : RegIdx} (v : Word) (h : q ≠ r) : (s.setReg r v).reg q = s.reg q := by
  simp [reg_setReg, h]

@[simp] theorem raise_regs (c : ErrorCause) (s : State) : (raise c s).regs = s.regs := rfl
@[simp] theorem raise_pc (c : ErrorCause) (s : State) : (raise c s).pc = s.pc := rfl
@[simp] theorem raise_status (c : ErrorCause) (s : State) : (raise c s).status = .faulted c := rfl
@[simp] theorem raise_cycle (c : ErrorCause) (s : State) : (raise c s).cycle = s.cycle := rfl
@[simp] theorem raise_imem (c : ErrorCause) (s : State) : (raise c s).imem = s.imem := rfl
@[simp] theorem raise_dmem (c : ErrorCause) (s : State) : (raise c s).dmem = s.dmem := rfl
@[simp] theorem raise_reg (c : ErrorCause) (s : State) (r : RegIdx) : (raise c s).reg r = s.reg r := rfl

@[simp] theorem commit_pc (e : Effect) (s : State) : (commit e s).pc = e.nextPc := rfl
@[simp] theorem commit_cycle (e : Effect) (s : State) : (commit e s).cycle = s.cycle + 1 := rfl

@[simp] theorem commit_status (e : Effect) (s : State) : (commit e s).status = s.status := by
  obtain ⟨_ | _, _ | _, _⟩ := e <;> rfl

@[simp] theorem commit_imem (e : Effect) (s : State) : (commit e s).imem = s.imem := by
  obtain ⟨_ | _, _ | _, _⟩ := e <;> rfl

/-- The registers after a commit: at most the requested one has changed. -/
theorem commit_reg (e : Effect) (s : State) (q : RegIdx) :
    (commit e s).reg q = match e.regWrite with
      | none => s.reg q
      | some (r, v) => if q = r then v else s.reg q := by
  obtain ⟨_ | ⟨r, v⟩, _ | _, _⟩ := e
  · rfl
  · rfl
  · exact reg_setReg s r q v
  · exact reg_setReg s r q v

/-- The data store after a commit: at most the requested word has changed. -/
theorem commit_dmem (e : Effect) (s : State) :
    (commit e s).dmem = match e.memWrite with
      | none => s.dmem
      | some (a, v) => s.dmem.writeWord a.toNat v := by
  obtain ⟨_ | _, _ | _, _⟩ := e <;> rfl

/-- Reset leaves the values of R38 to R40 whatever is loaded. -/
@[simp] theorem resetWith_reg (im dm : Store) (r : RegIdx) : (State.resetWith im dm).reg r = Config.regReset := by
  simp [State.resetWith, State.reg]

@[simp] theorem resetWith_pc (im dm : Store) : (State.resetWith im dm).pc = Config.pcReset := rfl
@[simp] theorem resetWith_status (im dm : Store) : (State.resetWith im dm).status = .running := rfl
@[simp] theorem resetWith_cycle (im dm : Store) : (State.resetWith im dm).cycle = 0 := rfl
@[simp] theorem resetWith_imem (im dm : Store) : (State.resetWith im dm).imem = im := rfl
@[simp] theorem resetWith_dmem (im dm : Store) : (State.resetWith im dm).dmem = dm := rfl

end Sys2Proof.Machine
end

