-- ==== Sys2Proof/Laws/Exec.lean ====
section
/-! SUPPORT. What each shared operation, each meaning and the step can do, once. Later proofs cite these. -/

namespace Sys2Proof.Machine

/-! ### Ports -/

@[simp] theorem checkIndex_toNat (r : RegIdx) : checkIndex r.toNat = .ok r := by
  simp [checkIndex, r.isLt]

@[simp] theorem readPort_toNat (r : RegIdx) (s : State) : readPort r.toNat s = .ok (s.reg r) := by
  simp [readPort]

@[simp] theorem writePort_toNat (r : RegIdx) (v : Word) : writePort r.toNat v = .ok (r, v) := by
  simp [writePort]

/-! ### Data accesses (R54 to R56) -/

theorem memRead_ok {a : Word} {s : State} (h : s.dmem.accepts a = true) : memRead a s = .ok (s.dmem.readWord a.toNat) :=
  if_pos h

theorem memRead_error {a : Word} {s : State} (h : ¬ s.dmem.accepts a = true) :
    memRead a s = .error (.outOfRange .data a) :=
  if_neg h

theorem memWrite_ok {a v : Word} {s : State} (h : s.dmem.accepts a = true) : memWrite a v s = .ok (a, v) :=
  if_pos h

theorem memWrite_error {a v : Word} {s : State} (h : ¬ s.dmem.accepts a = true) :
    memWrite a v s = .error (.outOfRange .data a) :=
  if_neg h

/-! ### Meanings -/

/-- What an instruction asks for when it does not raise (R164 stage 4). HALT asks for nothing; its value here is unused. -/
def effectOf (s : State) : Instr → Effect
  | .add rd rs1 rs2   => ⟨some (rd, s.reg rs1 + s.reg rs2), none, s.pc + 4#32⟩
  | .sub rd rs1 rs2   => ⟨some (rd, s.reg rs1 - s.reg rs2), none, s.pc + 4#32⟩
  | .xor rd rs1 rs2   => ⟨some (rd, s.reg rs1 ^^^ s.reg rs2), none, s.pc + 4#32⟩
  | .or rd rs1 rs2    => ⟨some (rd, s.reg rs1 ||| s.reg rs2), none, s.pc + 4#32⟩
  | .and rd rs1 rs2   => ⟨some (rd, s.reg rs1 &&& s.reg rs2), none, s.pc + 4#32⟩
  | .addi rd rs1 imm  => ⟨some (rd, s.reg rs1 + imm), none, s.pc + 4#32⟩
  | .xori rd rs1 imm  => ⟨some (rd, s.reg rs1 ^^^ imm), none, s.pc + 4#32⟩
  | .ori rd rs1 imm   => ⟨some (rd, s.reg rs1 ||| imm), none, s.pc + 4#32⟩
  | .andi rd rs1 imm  => ⟨some (rd, s.reg rs1 &&& imm), none, s.pc + 4#32⟩
  | .lw rd rs1 imm    => ⟨some (rd, s.dmem.readWord (s.reg rs1 + imm).toNat), none, s.pc + 4#32⟩
  | .sw rs1 rs2 imm   => ⟨none, some (s.reg rs1 + imm, s.reg rs2), s.pc + 4#32⟩
  | .beq rs1 rs2 off  => ⟨none, none, if s.reg rs1 = s.reg rs2 then s.pc + off else s.pc + 4#32⟩
  | .bne rs1 rs2 off  => ⟨none, none, if s.reg rs1 = s.reg rs2 then s.pc + 4#32 else s.pc + off⟩
  | .jal rd off       => ⟨some (rd, s.pc + 4#32), none, s.pc + off⟩
  | .halt             => ⟨none, none, s.pc⟩

/-- An instruction without a data address, HALT apart, always completes. -/
theorem exec_of_no_address {i : Instr} (s : State) (hi : i ≠ .halt) (ha : dataAddress s i = none) :
    exec i s = .next (commit (effectOf s i) s) := by
  cases i <;>
    simp_all [dataAddress, exec, execAdd, execSub, execXor, execOr, execAnd, execAddi, execXori, execOri, execAndi,
      execBeq, execBne, execJal, registerAlu, immediateAlu, branch, jumpAndLink, complete, effectOf, aluAdd, aluSub, aluXor,
      aluOr, aluAnd, aluEqual, sequentialPc, relativePc, linkValue, bind, Except.bind]

/-- LW and SW complete when the data store accepts their address and raise OutOfRangeError otherwise (R183). -/
theorem exec_of_address {i : Instr} {s : State} {a : Word} (ha : dataAddress s i = some a) :
    exec i s = .next (if s.dmem.accepts a then commit (effectOf s i) s else raise (.outOfRange .data a) s) := by
  cases i <;> simp [dataAddress] at ha <;> subst ha
  · rename_i rd rs1 imm
    by_cases h : s.dmem.accepts (s.reg rs1 + imm) = true
    · simp [exec, execLw, loadWord, effectiveAddress, memRead_ok h, h, complete, effectOf, sequentialPc, bind, Except.bind]
    · simp [exec, execLw, loadWord, effectiveAddress, memRead_error h, h, complete, bind, Except.bind]
  · rename_i rs1 rs2 imm
    by_cases h : s.dmem.accepts (s.reg rs1 + imm) = true
    · simp [exec, execSw, storeWord, effectiveAddress, memWrite_ok h, h, complete, effectOf, sequentialPc, bind, Except.bind]
    · simp [exec, execSw, storeWord, effectiveAddress, memWrite_error h, h, complete, bind, Except.bind]

@[simp] theorem exec_halt (s : State) : exec .halt s = .next { s with status := .halted } := rfl

/-- Everything an instruction can do: halt, raise an OutOfRangeError at its data address, or complete. -/
theorem exec_cases {i : Instr} {s t : State} (h : exec i s = .next t) :
    (i = .halt ∧ t = { s with status := .halted }) ∨
    (∃ a, dataAddress s i = some a ∧ s.dmem.accepts a = false ∧ t = raise (.outOfRange .data a) s) ∨
    (i ≠ .halt ∧ (∀ a, dataAddress s i = some a → s.dmem.accepts a = true) ∧ t = commit (effectOf s i) s) := by
  by_cases hi : i = .halt
  · subst hi
    exact .inl ⟨rfl, by simpa using h.symm⟩
  · right
    cases ha : dataAddress s i with
    | none =>
      rw [exec_of_no_address s hi ha] at h
      exact .inr ⟨hi, by simp, by simpa using h.symm⟩
    | some a =>
      rw [exec_of_address ha] at h
      cases hc : s.dmem.accepts a
      · exact .inl ⟨a, rfl, hc, by simpa [hc] using h.symm⟩
      · exact .inr ⟨hi, by simpa using hc, by simpa [hc] using h.symm⟩

/-- `exec` always answers a next state. -/
theorem exec_total (i : Instr) (s : State) : ∃ t, exec i s = .next t := by
  by_cases hi : i = .halt
  · exact ⟨_, hi ▸ exec_halt s⟩
  · cases ha : dataAddress s i with
    | none => exact ⟨_, exec_of_no_address s hi ha⟩
    | some a => exact ⟨_, exec_of_address ha⟩

/-! ### Facts about effects -/

/-- R53, R56: the check, in the terms claims use. -/
theorem accepts_iff_inRange (st : Store) (a : Word) : st.accepts a = true ↔ InRange st.size a := by
  rw [accepts_iff]; rfl

theorem accepts_eq_false {st : Store} {a : Word} (h : ¬ InRange st.size a) : st.accepts a = false := by
  rw [← accepts_iff_inRange] at h; simpa using h

theorem not_inRange_of_accepts {st : Store} {a : Word} (h : st.accepts a = false) : ¬ InRange st.size a := by
  rw [← accepts_iff_inRange]; simp [h]

/-- Only SW asks for a memory write, of `x[rs2]` at its effective address (R34, R142). -/
theorem effectOf_memWrite {i : Instr} {s : State} {a v : Word} (h : (effectOf s i).memWrite = some (a, v)) : ∃ rs1 rs2 imm, i = .sw rs1 rs2 imm ∧ a = s.reg rs1 + imm ∧ v = s.reg rs2 := by
  cases i <;> simp [effectOf] at h ⊢
  exact ⟨h.1.symm, h.2.symm⟩

/-- A memory write that is asked for was checked first (R142). -/
theorem memWrite_accepted {i : Instr} {s : State} (hc : ∀ a, dataAddress s i = some a → s.dmem.accepts a = true) : ∀ a v, (effectOf s i).memWrite = some (a, v) → s.dmem.accepts a = true := by
  intro a v h
  obtain ⟨rs1, rs2, imm, rfl, rfl, rfl⟩ := effectOf_memWrite h
  exact hc _ rfl

/-- A commit keeps the data store well-formed and its size (R35). -/
theorem commit_dmem_wf {e : Effect} {s : State} (hs : Store.wf s.dmem)
    (h : ∀ a v, e.memWrite = some (a, v) → s.dmem.accepts a = true) : Store.wf (commit e s).dmem ∧ (commit e s).dmem.size = s.dmem.size := by
  rw [commit_dmem]
  split
  · exact ⟨hs, rfl⟩
  · rename_i a v he
    exact ⟨writeWord_wf hs ((accepts_iff _ _).1 (h a v he)).2 v, rfl⟩

/-- The frame of a commit that writes no memory. -/
theorem commit_storesKept (e : Effect) (s : State) (h : e.memWrite = none) : StoresKept s (commit e s) := by
  refine ⟨rfl, by simp, by simp, ?_, ?_⟩ <;> simp [commit_dmem, h]

/-- The result and frame of a commit that writes one register. -/
theorem commit_wroteRegister {e : Effect} {s : State} {rd v npc} (hr : e.regWrite = some (rd, v)) (hm : e.memWrite = none) (hp : e.nextPc = npc) : WroteRegister rd v npc s (commit e s) := by
  refine ⟨by simp [commit_reg, hr], fun r h => by simp [commit_reg, hr, h], by simpa using hp, commit_storesKept e s hm⟩

/-! ### The step -/

theorem fetch_eq (s : State) :
    fetch s = if s.imem.accepts s.pc then .ok (s.imem.readWord s.pc.toNat) else .error (.outOfRange .fetch s.pc) := rfl

/-- Everything a step can do, in the order of R188: raise at fetch, raise at decode, or execute the decoded instruction. -/
theorem step_cases {s t : State} (h : step s = .next t) :
    s.status = .running ∧
    ((s.imem.accepts s.pc = false ∧ t = raise (.outOfRange .fetch s.pc) s) ∨
     (∃ w r, fetch s = .ok w ∧ decodeWord w = .error r ∧ t = raise (.decodeError w) s) ∨
     (∃ w i, fetch s = .ok w ∧ decodeWord w = .ok i ∧ exec i s = .next t)) := by
  unfold step at h
  split at h
  · cases h
  · cases h
  · refine ⟨‹_›, ?_⟩
    cases hf : fetch s with
    | error c =>
      rw [fetch_eq] at hf
      split at hf
      · cases hf
      · rw [fetch_eq, if_neg ‹_›] at h
        rename_i ha
        exact .inl ⟨by simpa using ha, by simpa using h.symm⟩
    | ok w =>
      rw [hf] at h
      cases hd : decodeWord w with
      | error r =>
        simp only [hd] at h
        exact .inr (.inl ⟨w, r, rfl, hd, by simpa using h.symm⟩)
      | ok i =>
        simp only [hd] at h
        exact .inr (.inr ⟨w, i, rfl, hd, h⟩)

/-- A step of a Running core that fetches and decodes executes. -/
theorem step_of_decoded {s : State} {w : Word} {i : Instr} (hs : s.status = .running) (hf : fetch s = .ok w)
    (hd : decodeWord w = .ok i) : step s = exec i s := by
  simp [step, hs, hf, hd]

/-- A step of a Running core that fetches an illegal word raises. -/
theorem step_of_illegal {s : State} {w : Word} {r : Reject} (hs : s.status = .running) (hf : fetch s = .ok w)
    (hd : decodeWord w = .error r) : step s = .next (raise (.decodeError w) s) := by
  simp [step, hs, hf, hd]

/-- A step of a Running core that cannot fetch raises. -/
theorem step_of_bad_fetch {s : State} (hs : s.status = .running) (hf : s.imem.accepts s.pc = false) :
    step s = .next (raise (.outOfRange .fetch s.pc) s) := by
  simp [step, hs, fetch_eq, hf]

theorem current_eq {s : State} {w : Word} {i : Instr} (hf : fetch s = .ok w) (hd : decodeWord w = .ok i) :
    current s = some i := by
  simp [current, hf, hd]

/-- The word placed by `withFetchWord` is the one the next step fetches. -/
theorem fetch_withFetchWord {s : State} (h : Memory.wf s.imem.cells) (hp : s.imem.accepts s.pc = true) (nbits w : Nat) :
    fetch (s.withFetchWord nbits w) = .ok (BitVec.ofNat 32 (w % 2 ^ nbits)) := by
  rw [State.withFetchWord, if_pos hp, fetch_eq, if_pos]
  · exact congrArg Except.ok (readWord_writeWord h _ _)
  · exact hp

end Sys2Proof.Machine
end

