-- ==== Sys2Proof/Laws/PerInstr.lean ====
section
/-! SUPPORT. Statements made per instruction. `OwnOpcode`: the canonical word of an instruction carries the opcode its format
is classified by (R81: "classified into one of six formats by the opcode alone"). -/

namespace Sys2Proof.Laws.OwnOpcode

/-- The opcode of each format. -/
def opcodeOf : Instr → BitVec 7
  | .add _ _ _  => opReg
  | .sub _ _ _  => opReg
  | .xor _ _ _  => opReg
  | .or _ _ _   => opReg
  | .and _ _ _  => opReg
  | .addi _ _ _ => opImm
  | .xori _ _ _ => opImm
  | .ori _ _ _  => opImm
  | .andi _ _ _ => opImm
  | .lw _ _ _   => opLoad
  | .sw _ _ _   => opStore
  | .beq _ _ _  => opBranch
  | .bne _ _ _  => opBranch
  | .jal _ _    => opJal
  | .halt       => opHalt

def Statement (i : Instr) : Prop := fieldOpcode (encodeWord i) = opcodeOf i

theorem add (rd rs1 rs2 : RegIdx) : Statement (.add rd rs1 rs2) := fieldOpcode_encodeR ..
theorem sub (rd rs1 rs2 : RegIdx) : Statement (.sub rd rs1 rs2) := fieldOpcode_encodeR ..
theorem xor (rd rs1 rs2 : RegIdx) : Statement (.xor rd rs1 rs2) := fieldOpcode_encodeR ..
theorem or (rd rs1 rs2 : RegIdx) : Statement (.or rd rs1 rs2) := fieldOpcode_encodeR ..
theorem and (rd rs1 rs2 : RegIdx) : Statement (.and rd rs1 rs2) := fieldOpcode_encodeR ..
theorem addi (rd rs1 : RegIdx) (imm : Word) : Statement (.addi rd rs1 imm) := fieldOpcode_encodeI ..
theorem xori (rd rs1 : RegIdx) (imm : Word) : Statement (.xori rd rs1 imm) := fieldOpcode_encodeI ..
theorem ori (rd rs1 : RegIdx) (imm : Word) : Statement (.ori rd rs1 imm) := fieldOpcode_encodeI ..
theorem andi (rd rs1 : RegIdx) (imm : Word) : Statement (.andi rd rs1 imm) := fieldOpcode_encodeI ..
theorem lw (rd rs1 : RegIdx) (imm : Word) : Statement (.lw rd rs1 imm) := fieldOpcode_encodeI ..
theorem sw (rs1 rs2 : RegIdx) (imm : Word) : Statement (.sw rs1 rs2 imm) := fieldOpcode_encodeS ..
theorem beq (rs1 rs2 : RegIdx) (off : Word) : Statement (.beq rs1 rs2 off) := fieldOpcode_encodeB ..
theorem bne (rs1 rs2 : RegIdx) (off : Word) : Statement (.bne rs1 rs2 off) := fieldOpcode_encodeB ..
theorem jal (rd : RegIdx) (off : Word) : Statement (.jal rd off) := fieldOpcode_encodeJ ..
theorem halt : Statement .halt := fieldOpcode_encodeHalt

end Sys2Proof.Laws.OwnOpcode
end

