-- ==== Sys2Proof/Laws/Run.lean ====
section
/-! SUPPORT. Runs of the machine behind Host/Core.lean, in terms of `step`. -/

namespace Sys2Proof.Machine

theorem run_zero (s : State) : Host.Core.run core 0 s = .next s := rfl

theorem run_succ (n : Nat) (s : State) : Host.Core.run core (n + 1) s = match step s with
    | .next t => Host.Core.run core n t
    | .fault r => .fault r
    | .refused r => .refused r := by
  cases h : step s <;> (have h' : core.step s = _ := h; exact (Host.Core.run.eq_2 core s n).trans (by rw [h']))

/-- A run of one more step is the run and then the step. -/
theorem run_succ_iff {n : Nat} : ∀ {s t : State}, Host.Core.run core (n+1) s = .next t ↔ ∃ u : State, Host.Core.run core n s = .next u ∧ step u = .next t := by
  induction n with
  | zero =>
    intro s t
    rw [run_succ]
    constructor
    · intro h
      split at h
      · rename_i u hu; injection h with h; subst h; exact ⟨s, rfl, hu⟩
      · cases h
      · cases h
    · rintro ⟨u, h, h'⟩
      injection h with h; subst h
      rw [h']; rfl
  | succ n ih =>
    intro s t
    rw [run_succ]
    constructor
    · intro h
      split at h
      · rename_i v hv
        obtain ⟨u, h1, h2⟩ := ih.1 h
        exact ⟨u, by rw [run_succ, hv]; exact h1, h2⟩
      · cases h
      · cases h
    · rintro ⟨u, h, h'⟩
      rw [run_succ] at h
      split at h
      · rename_i v hv
        exact ih.2 ⟨u, h, h'⟩
      · cases h
      · cases h

end Sys2Proof.Machine
end

