-- ==== Sys2Proof/Laws/System.lean ====
section
/-! SUPPORT. What a launch, a step request and a schedule can do to a system. -/

namespace Sys2Proof.Machine

@[simp] theorem request_of_not_running {s : State} (h : s.status ≠ .running) : request s = s := by
  unfold request step
  split <;> rename_i e <;> split at e <;> simp_all

/-- Requests of a core that is not Running are no steps (R160). -/
theorem requests_of_not_running {s : State} (h : s.status ≠ .running) : ∀ n, requests n s = s
  | 0 => rfl
  | n + 1 => by rw [requests, request_of_not_running h, requests_of_not_running h n]

/-- The last request apart from the others. -/
theorem requests_succ (n : Nat) (s : State) : requests (n + 1) s = request (requests n s) := by
  induction n generalizing s with
  | zero => rfl
  | succ n ih => rw [requests, ih]; rfl

theorem System.ncores_pos (sys : System) : 1 ≤ sys.ncores := Nat.le_add_left _ _

@[simp] theorem System.cores_stepCore (sys : System) (i : Nat) : (sys.stepCore i).cores = sys.cores.modify i request := by
  cases i <;> rfl

@[simp] theorem System.ncores_stepCore (sys : System) (i : Nat) : (sys.stepCore i).ncores = sys.ncores := by
  simp [System.ncores]

@[simp] theorem System.ncores_run (sys : System) (schedule : List Nat) : (sys.run schedule).ncores = sys.ncores := by
  induction schedule generalizing sys with
  | nil => rfl
  | cons i rest ih => rw [System.run, ih, System.ncores_stepCore]

@[simp] theorem System.ncores_after (sys : System) (schedule : Nat → Nat) (n : Nat) :
    (sys.after schedule n).ncores = sys.ncores := by
  induction n with
  | zero => rfl
  | succ n ih => rw [System.after, System.ncores_stepCore, ih]

/-- One request of an unending schedule, seen from instance `i`. -/
theorem System.after_succ_core (sys : System) (schedule : Nat → Nat) (n i : Nat) :
    (sys.after schedule (n + 1)).cores[i]? =
      if schedule n = i then ((sys.after schedule n).cores[i]?).map request else (sys.after schedule n).cores[i]? := by
  rw [System.after, System.cores_stepCore, List.getElem?_modify]
  split <;> simp

/-- Everything a launch of several instances that is not refused can answer. -/
theorem launchEach_ok {images : List Images} : ∀ {ss : List State}, launchEach images = .ok ss →
    ss.length = images.length ∧
      ∀ (k : Nat) (p : Images), images[k]? = some p → ∃ s, ss[k]? = some s ∧ launch p.imem p.dmem = .ok s := by
  induction images with
  | nil => intro ss h; cases h; exact ⟨rfl, by simp⟩
  | cons p rest ih =>
    intro ss h
    unfold launchEach at h
    split at h
    · cases h
    · rename_i s hs
      split at h
      · cases h
      · rename_i ss' hss
        cases h
        obtain ⟨hl, hk⟩ := ih hss
        refine ⟨by simp [hl], fun k q hq => ?_⟩
        cases k with
        | zero => cases hq; exact ⟨s, rfl, hs⟩
        | succ k => exact hk k q hq

/-- Everything a launch of a system that is not refused can answer. -/
theorem System.launch_ok {images : List Images} {sys : System} (h : System.launch images = .ok sys) :
    launchEach images = .ok sys.cores := by
  unfold System.launch at h
  split at h
  · cases h
  · cases h
  · rename_i e; cases h; exact e

end Sys2Proof.Machine
end

