-- ==== Sys2Proof/Tests/Slice0.lean ====
section
/-! SUPPORT. Tests. Expected values come from spec/95_test_vectors.md (the vector is named) or are worked out by hand from the
rule named. Then, for each obligation with hypotheses, a witness that meets them. -/

namespace Sys2Proof.Tests
open Sys2Proof Sys2Proof.Machine

/-! ### Well-formedness refuses what no word encodes -/

theorem test_wellFormed_imm12_too_large : (Instr.addi 1 2 2048).wellFormed = false := by decide
theorem test_wellFormed_imm12_too_small : (Instr.sw 1 2 (-2049)).wellFormed = false := by decide
theorem test_wellFormed_offB_too_large : (Instr.beq 1 2 4096).wellFormed = false := by decide
theorem test_wellFormed_offB_odd : (Instr.bne 1 2 3).wellFormed = false := by decide
theorem test_wellFormed_offJ_too_large : (Instr.jal 1 1048576).wellFormed = false := by decide
theorem test_wellFormed_offJ_odd : (Instr.jal 1 (-7)).wellFormed = false := by decide

/-! ### Decoding: one word written out per constructor, bit by bit from R83 to R88 -/

theorem test_decode_add : decodeTableWord 32 0b00000000001000001000000110110011 = some (.add 3 1 2) := by decide
theorem test_decode_sub : decodeTableWord 32 0b01000000001000001000000110110011 = some (.sub 3 1 2) := by decide
theorem test_decode_xor : decodeTableWord 32 0b00000000001000001100000110110011 = some (.xor 3 1 2) := by decide
theorem test_decode_or : decodeTableWord 32 0b00000000001000001110000110110011 = some (.or 3 1 2) := by decide
theorem test_decode_and : decodeTableWord 32 0b00000000001000001111000110110011 = some (.and 3 1 2) := by decide
theorem test_decode_addi : decodeTableWord 32 0b10000000000000110000001010010011 = some (.addi 5 6 (-2048)) := by decide
theorem test_decode_xori : decodeTableWord 32 0b00001111000000101100001110010011 = some (.xori 7 5 240) := by decide
theorem test_decode_ori : decodeTableWord 32 0b01010101010101001110010000010011 = some (.ori 8 9 1365) := by decide
theorem test_decode_andi : decodeTableWord 32 0b11110000000001001111010000010011 = some (.andi 8 9 (-256)) := by decide
theorem test_decode_lw : decodeTableWord 32 0b01111111111111111010111110000011 = some (.lw 31 31 2047) := by decide
theorem test_decode_lw_other_funct3 : decodeTableWord 32 0x00001203 = some (.lw 4 0 0) := by decide
theorem test_decode_sw : decodeTableWord 32 0b11111110001100010010111000100011 = some (.sw 2 3 (-4)) := by decide
theorem test_decode_sw_other_funct3 : decodeTableWord 32 0x00300023 = some (.sw 0 3 0) := by decide
theorem test_decode_beq : decodeTableWord 32 0b01111110000000000000111111100011 = some (.beq 0 0 4094) := by decide
theorem test_decode_beq_bit11 : decodeTableWord 32 0x00100063 = some (.beq 0 1 0) := by decide
theorem test_decode_bne : decodeTableWord 32 0b11111110000000001001110011100011 = some (.bne 1 0 (-8)) := by decide
theorem test_decode_jal : decodeTableWord 32 0b10000000000000000000001011101111 = some (.jal 5 (-1048576)) := by decide
theorem test_decode_jal_bit12 : decodeTableWord 32 0x0000116F = some (.jal 2 4096) := by decide
theorem test_decode_halt : decodeTableWord 32 0x0000007F = some .halt := by decide
/-- V-ILL: an unmapped opcode, an R pair, an I funct3 and a B funct3 without a mnemonic. -/
theorem test_decode_illegal :
    [0x00000000, 0x00000073, 0x0020A1B3, 0x402091B3, 0x00001013, 0x0020C063].map (decodeTableWord 32) =
      [none, none, none, none, none, none] := by decide
theorem test_decode_truncated : decode [0x00, 0x00, 0x22] = .error .truncated := by rfl
/-- R104's canonical halt word. -/
theorem test_encode_halt : encodeWord .halt = 0xFFFFFFFF#32 := by decide

/-! ### Execution -/

/-- A state with the given registers and pc, `DMEM` as in V-MEM and one instruction image. -/
def mk (regs : List (RegIdx × Word)) (pc : Word) (word : Word) : State :=
  let s0 := State.resetWith (Store.blank)
    (Store.ofBytes [0, 0, 0, 8, 0x11, 0x22, 0x33, 0x44, 0x80, 0, 0, 0, 0xFF, 0xFF, 0xFF, 0xFF])
  let s1 := { s0 with pc := pc }
  let s2 := s1.withFetchWord 32 word.toNat
  regs.foldl (fun s p => s.setReg p.1 p.2) s2

/-- One step answers a next state with the property. -/
def stepsTo (s : State) (p : State → Bool) : Bool :=
  match step s with
  | .next t => p t
  | .fault _ => false
  | .refused _ => false

/-- The two stores and the status are as before, pc is `pc` and the step counted. -/
def went (pc : Word) (s t : State) : Bool :=
  t.pc == pc && t.cycle == s.cycle + 1 && t.status == .running && t.imem == s.imem

theorem test_add_wraps : stepsTo (mk [(1, 0x7FFFFFFF), (2, 1)] 0 0x002081B3) (fun t => t.reg 3 == 0x80000000 && t.pc == 4) = true := by decide
theorem test_add_source_is_destination : stepsTo (mk [(1, 0x40000001)] 0 0x001080B3) (fun t => t.reg 1 == 0x80000002) = true := by decide
theorem test_sub_operand_order : stepsTo (mk [(1, 3), (2, 5)] 0 0x402081B3) (fun t => t.reg 3 == 0xFFFFFFFE) = true := by decide
theorem test_xor : stepsTo (mk [(1, 0xFFFFFFFF), (2, 0x12345678)] 0 0x0020C1B3) (fun t => t.reg 3 == 0xEDCBA987) = true := by decide
theorem test_or : stepsTo (mk [(1, 0x80000001), (2, 0xF00)] 0 0x0020E1B3) (fun t => t.reg 3 == 0x80000F01) = true := by decide
theorem test_and : stepsTo (mk [(1, 0xF0F0F0F0), (2, 0xFF00FF00)] 0 0x0020F1B3) (fun t => t.reg 3 == 0xF000F000) = true := by decide
theorem test_addi_wraps : stepsTo (mk [(6, 0x7FFFFFFF)] 0 0x7FF30293) (fun t => t.reg 5 == 0x800007FE) = true := by decide
/-- V-X0. -/
theorem test_addi_writes_x0 : stepsTo (mk [] 0 0x00500013) (fun t => t.reg 0 == 5) = true := by decide
theorem test_xori : stepsTo (mk [(5, 0x12345678)] 0 0xFFF2C393) (fun t => t.reg 7 == 0xEDCBA987) = true := by decide
theorem test_ori_negative : stepsTo (mk [(9, 0x123)] 0 0x8004E413) (fun t => t.reg 8 == 0xFFFFF923) = true := by decide
theorem test_andi_negative : stepsTo (mk [(9, 0x12345678)] 0 0xF004F413) (fun t => t.reg 8 == 0x12345600) = true := by decide
/-- V-MEM: the address wraps to 0 and uses the old x31. -/
theorem test_lw_address_wraps : stepsTo (mk [(31, 0xFFFFF801)] 0 0x7FFFAF83) (fun t => t.reg 31 == 8 && t.pc == 4) = true := by decide
theorem test_lw_misaligned : stepsTo (mk [(4, 0xAAAA)] 0 0x00202203)
    (fun t => t.status == .faulted (.outOfRange .data 2) && t.reg 4 == 0xAAAA && t.pc == 0 && t.cycle == 0) = true := by decide
theorem test_sw_bytes : stepsTo (mk [(2, 8), (3, 0xCAFEBABE)] 0 0xFE312E23)
    (fun t => t.dmem.dump == [0, 0, 0, 8, 0xCA, 0xFE, 0xBA, 0xBE, 0x80, 0, 0, 0, 0xFF, 0xFF, 0xFF, 0xFF]) = true := by decide
theorem test_sw_past_end : stepsTo (mk [(3, 1)] 0 0x00302823)
    (fun t => t.status == .faulted (.outOfRange .data 16) && t.dmem == (mk [] 0 0).dmem) = true := by decide
theorem test_beq_backward : stepsTo (mk [(1, 0x80000000), (2, 0x80000000)] 8 0xFE208EE3)
    (fun t => went 4 (mk [] 8 0xFE208EE3) t) = true := by decide
theorem test_beq_not_taken : stepsTo (mk [(1, 7), (2, 8)] 12 0x00208463) (fun t => t.pc == 16) = true := by decide
theorem test_bne_taken : stepsTo (mk [(1, 4)] 16 0xFE009CE3) (fun t => t.pc == 8) = true := by decide
/-- V-BR: the branch completes and the next step raises at fetch. -/
theorem test_bne_bad_target : stepsTo (mk [(3, 1), (4, 2)] 4 0x00419163)
    (fun t => t.pc == 6 && stepsTo t (fun u => u.status == .faulted (.outOfRange .fetch 6) && u.cycle == 1)) = true := by decide
theorem test_jal_backward : stepsTo (mk [] 24 0xFF9FF0EF) (fun t => t.reg 1 == 0x1C && t.pc == 16) = true := by decide
/-- V-X0. -/
theorem test_jal_links_x0 : stepsTo (mk [] 8 0x0000006F) (fun t => t.reg 0 == 0xC && t.pc == 8) = true := by decide
theorem test_halt : stepsTo (mk [] 20 0x1234567F) (fun t => t == { mk [] 20 0x1234567F with status := .halted }) = true := by decide
/-- R101, R181: an illegal word; R160: then no step exists. -/
theorem test_illegal_word : stepsTo (mk [] 0 0x00209193) (fun t => t == { mk [] 0 0x00209193 with status := .faulted (.decodeError 0x00209193) }) = true := by decide
theorem test_reset_memory_canonical : Memory.wf State.reset.imem.cells ∧ Memory.wf State.reset.dmem.cells := by decide
/-- S1 and V-CODEC. -/
theorem test_codec : codecDecode (0x1FF8#13) = -8 ∧ codecDecode (0x1FFFF8#21) = -8 ∧ codecEncode (-2147483648) = 0x80000000#32 := by
  decide
/-- A byte written as an unlisted address reads leaves no entry. -/
theorem test_memory_write_removes : Memory.write [(3, 7), (5, 9)] 5 0 = [(3, 7)] := by decide
/-- R185. -/
theorem test_error_codes : (ErrorCause.decodeError 0).code = 1 ∧ (ErrorCause.outOfRange .data 0).code = 2 ∧
    ErrorCause.invalidRegisterIndex.code = 3 ∧ Status.running.errorCode = 0 ∧ Status.halted.errorCode = 0 ∧
    (Status.faulted (.outOfRange .fetch 0)).errorCode = 2 := by decide
/-- R197: a system of a Halted and a Faulted core is finished. -/
theorem test_system_finished : (⟨{ State.reset with status := .halted },
    [{ State.reset with status := .faulted (.decodeError 0) }]⟩ : System).finished = true := by decide

/-! ### Witnesses: concrete states and operands that meet every hypothesis of a statement together -/

theorem witness_DecodeOfEncode :
    (Instr.beq 31 0 (-4096)).wellFormed = true ∧ (Instr.jal 31 1048574).wellFormed = true ∧
    (Instr.lw 0 31 (-2048)).wellFormed = true := by decide

theorem witness_DecodedInstructionsAreWellFormed : decodeWord 0x800002EF#32 = .ok (.jal 5 (-1048576)) := by rfl

theorem witness_DecoderFollowsOpcodeMap : (⟨"BNE", 0x00001063#32, 0x0000707F#32⟩ : OpcodeRow) ∈ opcodeRows ∧
    0xFE009CE3#32 &&& 0x0000707F#32 = 0x00001063#32 := by decide

theorem witness_NoWordMatchesTwoRows : (⟨"LW", 0x00000003#32, 0x0000007F#32⟩ : OpcodeRow) ∈ opcodeRows ∧
    0x00001203#32 &&& 0x0000007F#32 = 0x00000003#32 := by decide

/-- One illegal word for each of R101 (a) to (d). -/
theorem witness_IllegalWordsRaiseDecodeError :
    (mk [] 0 0x00209193).status = .running ∧ fetch (mk [] 0 0x00209193) = .ok 0x00209193#32 ∧
    decodeWord 0x00000073#32 = .error (.unmappedOpcode 0x73) ∧ decodeWord 0x4020D1B3#32 = .error (.noRegisterOp 0x20 5) ∧
    decodeWord 0x00209193#32 = .error (.noImmediateOp 1) ∧ decodeWord 0x0020C063#32 = .error (.noBranchOp 4) :=
  ⟨rfl, rfl, rfl, rfl, rfl, rfl⟩

theorem witness_IgnoredBitsDoNotMatter : imm12Ok 2047 = true ∧ imm12Ok (-2048) = true := by decide

theorem witness_LooseDecodingExtendsStrict :
    decodeWordWith false 0x402081B3#32 = .ok (.sub 3 1 2) ∧ (1#7 : BitVec 7) ≠ 0x20#7 := ⟨rfl, by decide⟩

theorem witness_SignedCodecRoundTrip : (0 < 1 ∧ 1 ≤ 32) ∧ (-2147483648 : Int) ≤ -2147483648 ∧ (2147483647 : Int) ≤ 2147483647 := by
  decide

theorem witness_LaunchLoadsBothImages : launch [0, 0x10, 0, 0x93] [7] =
    .ok (State.resetWith (Store.ofBytes [0, 0x10, 0, 0x93]) (Store.ofBytes [7])) := by rfl

theorem witness_FirstInstructionIsAtAddressZero :
    (∃ s, launch (0 :: 0x10 :: 0 :: 0x93 :: [0xFF, 0xFF, 0xFF, 0xFF]) [] = .ok s) ∧
    decode [0, 0x10, 0, 0x93] = .ok (.addi 1 0 1, []) := ⟨⟨_, rfl⟩, rfl⟩

/-- A state of the invariant that steps: a SW to the last word of the store. -/
theorem witness_StepKeepsInv :
    Inv (mk [(3, 0x01020304)] 0 0x00302623) ∧ ∃ t, step (mk [(3, 0x01020304)] 0 0x00302623) = .next t :=
  ⟨⟨by decide, by decide, by decide, by decide, by decide⟩, ⟨_, rfl⟩⟩

/-- One step to each kind of stop. -/
theorem witness_StepExplainsStatus :
    stepsTo (mk [] 0 0x7F) (fun t => t.status == .halted) = true ∧
    stepsTo (mk [] 0 0) (fun t => t.status == .faulted (.decodeError 0)) = true ∧
    stepsTo (mk [] 2 0) (fun t => t.status == .faulted (.outOfRange .fetch 2)) = true ∧
    stepsTo (mk [] 0 0x01002203) (fun t => t.status == .faulted (.outOfRange .data 16)) = true := by decide

theorem witness_StepRunsDecodedInstruction :
    (mk [] 8 0x00500093).status = .running ∧ InRange (mk [] 8 0x00500093).imem.size (mk [] 8 0x00500093).pc ∧
    decode [(mk [] 8 0x00500093).imem.readByte 8, (mk [] 8 0x00500093).imem.readByte 9, (mk [] 8 0x00500093).imem.readByte 10,
      (mk [] 8 0x00500093).imem.readByte 11] = .ok (.addi 1 0 5, []) := ⟨rfl, ⟨by decide, by decide⟩, rfl⟩

/-- The last word of the store is fetched, and the addresses on either side of the rule are not. -/
theorem witness_FetchOutOfRange :
    (∃ w, fetch (mk [] 0x7FFFFFFC 0x13) = .ok w) ∧ (mk [] 0x7FFFFFFD 0).status = .running ∧
    ¬ ((mk [] 0x7FFFFFFD 0).pc.toNat % 4 = 0 ∧ (mk [] 0x7FFFFFFD 0).pc.toNat + 4 ≤ (mk [] 0x7FFFFFFD 0).imem.size) ∧
    ¬ ((mk [] 0x80000000 0).pc.toNat % 4 = 0 ∧ (mk [] 0x80000000 0).pc.toNat + 4 ≤ (mk [] 0x80000000 0).imem.size) :=
  ⟨⟨_, rfl⟩, rfl, by decide, by decide⟩

theorem witness_DataAccessOutOfRange :
    ¬ InRange (mk [] 0 0).dmem.size ((mk [] 0 0).reg 0 + 16) ∧ ¬ InRange (mk [] 0 0).dmem.size ((mk [] 0 0).reg 0 + 13) ∧
    ¬ InRange (mk [] 0 0).dmem.size ((mk [] 0 0).reg 0 + (-4)) ∧
    ∃ t, exec (.sw 0 3 16) (mk [] 0 0) = .next t ∧ t.status = .faulted (.outOfRange .data 16) :=
  ⟨fun h => absurd h.2 (by decide), fun h => absurd h.1 (by decide), fun h => absurd h.2 (by decide), _, rfl, rfl⟩

theorem witness_RaisingChangesOnlyTheStatus :
    ∃ t, step (mk [] 0 0) = .next t ∧ t.status = .faulted (.decodeError 0) := ⟨_, rfl, rfl⟩

theorem witness_OnlyRunningCoresStep :
    State.reset.status = .running ∧ ({ State.reset with status := .halted } : State).status = .halted ∧
    ({ State.reset with status := .faulted (.decodeError 0) } : State).status = .faulted (.decodeError 0) := ⟨rfl, rfl, rfl⟩

theorem witness_CycleCountsCompletedSteps : ∃ t, step (mk [] 0 0x13) = .next t ∧ t.status = .running := ⟨_, rfl, rfl⟩

/-- A taken BEQ, a BNE, a JAL and a LW that complete, a HALT, a raising step, and words that decode to each transfer. -/
theorem witness_ProgramCounterUpdate :
    (∃ t, exec (.beq 1 1 (-4)) (mk [] 8 0) = .next t ∧ t.status = .running) ∧
    (∃ t, exec (.bne 1 1 8) (mk [] 8 0) = .next t ∧ t.status = .running) ∧
    (∃ t, exec (.jal 0 2) (mk [] 8 0) = .next t ∧ t.status = .running) ∧
    (∃ t, exec (.lw 1 0 12) (mk [] 8 0) = .next t ∧ t.status = .running) ∧
    (∃ t, exec .halt (mk [] 8 0) = .next t) ∧
    (∃ t, step (mk [] 2 0) = .next t ∧ t.status = .faulted (.outOfRange .fetch 2)) ∧
    decodeWord 0x000000E3#32 = .ok (.beq 0 0 2048) ∧ decodeWord 0x00419163#32 = .ok (.bne 3 4 2) ∧
    decodeWord 0x800002EF#32 = .ok (.jal 5 (-1048576)) :=
  ⟨⟨_, rfl, rfl⟩, ⟨_, rfl, rfl⟩, ⟨_, rfl, rfl⟩, ⟨_, rfl, rfl⟩, ⟨_, rfl⟩, ⟨_, rfl, rfl⟩, rfl, rfl, rfl⟩

/-- A register outside the sources that differs: x3 of `ADD x3,x1,x2`. -/
theorem witness_RegistersReadAndWritten :
    (mk [] 0 0).status = .running ∧ (∃ t, exec (.add 3 1 2) (mk [] 0 0) = .next t) ∧
    (∀ r, r ∈ (Instr.add 3 1 2).sources → ((mk [] 0 0).setReg 3 9).reg r = (mk [] 0 0).reg r) ∧
    ((mk [] 0 0).setReg 3 9).regs ≠ (mk [] 0 0).regs ∧ (Instr.add 3 1 2).dest ≠ some 4 := by
  refine ⟨rfl, ⟨_, rfl⟩, ?_, by decide, by decide⟩
  intro r hr
  simp only [Instr.sources, List.mem_cons, List.not_mem_nil, or_false] at hr
  rcases hr with rfl | rfl <;> decide

theorem witness_RegisterZeroIsOrdinary : State.reset.reg 0#5 = 0#32 := by decide

theorem witness_StoresAreSeparate :
    (∃ t, exec (.jal 1 4) (mk [] 0 0) = .next t) ∧ (∃ t, step (mk [] 0 0x13) = .next t) ∧
    (Instr.jal 1 4).mnemonic ≠ "LW" ∧ (Instr.jal 1 4).mnemonic ≠ "SW" := ⟨⟨_, rfl⟩, ⟨_, rfl⟩, by decide, by decide⟩

/-- A step that does change the store. -/
theorem witness_DataStoreChangesOnlyByAlignedWords :
    Store.wf (mk [(3, 1)] 0 0x00302623).dmem ∧
    stepsTo (mk [(3, 1)] 0 0x00302623) (fun t => t.dmem != (mk [(3, 1)] 0 0x00302623).dmem) = true := by decide

theorem witness_InvalidRegisterIndexIsUnreachable : (32 ≤ 32 ∧ 31 < 32) ∧ ∃ t, step State.reset = .next t :=
  ⟨by decide, _, rfl⟩

theorem witness_ImmediateArithmetic :
    decodeWord 0x80030293#32 = .ok (.addi 5 6 (-2048)) ∧ decodeWord 0xFFF2C393#32 = .ok (.xori 7 5 (-1)) ∧
    decodeWord 0x8004E413#32 = .ok (.ori 8 9 (-2048)) ∧ decodeWord 0x0FF5F513#32 = .ok (.andi 10 11 255) ∧
    ((-2048 : Word)).toInt < 0 := ⟨rfl, rfl, rfl, rfl, by decide⟩

/-- The last word of the store. -/
theorem witness_LoadWordReadsFourBytes : InRange (mk [] 0 0).dmem.size ((mk [] 0 0).reg 0 + 12) :=
  ⟨by decide, by decide⟩

theorem witness_StoreWordWritesFourBytes :
    Store.wf (mk [] 0 0).dmem ∧ InRange (mk [] 0 0).dmem.size ((mk [] 0 0).reg 0 + 12) := ⟨by decide, by decide, by decide⟩

/-- `t` after SW of 5 at the last word of the store, `u` after one more SW of 9 at the word before it. -/
theorem witness_LoadReturnsStoredValue :
    ∃ t u, Store.wf (mk [(3, 5), (4, 9)] 0 0).dmem ∧ (mk [(3, 5), (4, 9)] 0 0).status = .running ∧
      exec (.sw 0 3 12) (mk [(3, 5), (4, 9)] 0 0) = .next t ∧ t.status = .running ∧
      exec (.sw 0 4 8) t = .next u ∧ u.dmem ≠ t.dmem ∧
      u.dmem.size = t.dmem.size ∧ u.reg 0 + 12 = (mk [(3, 5), (4, 9)] 0 0).reg 0 + 12 ∧
      ∀ k, k < 4 → u.dmem.readByte (((mk [(3, 5), (4, 9)] 0 0).reg 0 + 12).toNat + k) =
        t.dmem.readByte (((mk [(3, 5), (4, 9)] 0 0).reg 0 + 12).toNat + k) :=
  ⟨_, _, by decide, rfl, rfl, rfl, rfl, by decide, rfl, rfl, by decide⟩

theorem witness_HaltChangesOnlyTheStatus :
    (mk [] 0 0x1234567F).status = .running ∧ fetch (mk [] 0 0x1234567F) = .ok 0x1234567F#32 ∧
    0x1234567F#32 &&& 0x7F#32 = 0x7F#32 := ⟨rfl, rfl, by decide⟩

/-- A misaligned target, a target below 0 and a good one. -/
theorem witness_BadTargetRaisesAtNextFetch :
    (mk [(1, 4)] 4 0).status = .running ∧ (mk [(1, 4)] 4 0).reg 2 = (mk [(1, 4)] 4 0).reg 3 ∧
    (mk [(1, 4)] 4 0).reg 1 ≠ (mk [(1, 4)] 4 0).reg 2 ∧
    ¬ InRange (mk [(1, 4)] 4 0).imem.size ((mk [(1, 4)] 4 0).pc + 2) ∧
    ¬ InRange (mk [(1, 4)] 4 0).imem.size ((mk [(1, 4)] 4 0).pc + (-8)) ∧
    InRange (mk [(1, 4)] 4 0).imem.size ((mk [(1, 4)] 4 0).pc + 8) :=
  ⟨rfl, by decide, by decide, fun h => absurd h.1 (by decide), fun h => absurd h.2 (by decide), by decide, by decide⟩

theorem witness_CanonicalMemoriesAreDeterminedByReads :
    Memory.wf [(3, 7), (5, 9)] ∧ Memory.wf (Memory.write (Memory.write [] 5 9) 3 7) ∧
    ∀ a, Memory.read [(3, 7), (5, 9)] a = Memory.read (Memory.write (Memory.write [] 5 9) 3 7) a :=
  ⟨by decide, by decide, fun _ => rfl⟩

theorem witness_EffectiveAddressReadings : imm12Ok (-2048) = true ∧ (⟨2147481600, []⟩ : Store).size ≤ 2147481600 := by decide

/-- `ADDI x1,x0,5` and HALT, from reset. -/
def straightLine : State := State.resetWith (Store.ofBytes [0x00, 0x50, 0x00, 0x93, 0xFF, 0xFF, 0xFF, 0xFF]) (Store.ofBytes [])

theorem witness_HaltTerminatesStraightLine :
    straightLine.status = .running ∧ straightLine.pc = 0#32 ∧ straightLine.cycle = 0 ∧ 4 * 1 + 4 ≤ straightLine.imem.size ∧
    straightLine.imem.size ≤ 2147483648 ∧
    (∀ k, k < 1 → ∃ i, decodeWord (straightLine.imem.readWord (4 * k)) = .ok i ∧ isStraight i = true ∧ isPlainAlu i = true) ∧
    decodeWord (straightLine.imem.readWord (4 * 1)) = .ok .halt ∧
    ∃ t : State, Host.Core.run core 1 straightLine = .next t ∧ t.status = .running := by
  refine ⟨rfl, rfl, rfl, by decide, by decide, fun k hk => ?_, rfl, _, rfl, rfl⟩
  obtain rfl : k = 0 := by omega
  exact ⟨.addi 1 0 5, rfl, by decide, by decide⟩

theorem witness_InstancesAreIndependent :
    (∀ i, [0, 1, 0].count i = [1, 0, 0].count i) ∧ ({ first := straightLine, rest := [straightLine] } : System).sharesImem := by
  refine ⟨fun i => ?_, ?_⟩
  · simp only [List.count_cons, List.count_nil]
    omega
  · intro s hs t ht
    simp only [System.cores, List.mem_cons, List.not_mem_nil, or_false, or_self] at hs ht
    rw [hs, ht]

/-- A completed step, a halting one, an illegal word, a pc outside the store and a misaligned data access. -/
theorem witness_ErrorCodesNameTheError :
    stepsTo (mk [] 0 0x00500093) (fun t => t.status.errorCode == 0) = true ∧
    stepsTo (mk [] 0 0x0000007F) (fun t => t.status.errorCode == 0) = true ∧
    stepsTo (mk [] 0 0x00209193) (fun t => t.status.errorCode == 1) = true ∧
    stepsTo { mk [] 0 0 with pc := 2 } (fun t => t.status.errorCode == 2) = true ∧
    stepsTo (mk [(2, 1)] 0 0x00012203) (fun t => t.status.errorCode == 2) = true := by decide

/-- Two instances share an image of HALT; a system of none, and one with an illegal image, are refused. -/
theorem witness_LaunchedInstancesDifferOnlyInImages :
    (∃ sys, System.launchShared [0, 0, 0, 0x7F] [[], [1, 2]] = .ok sys ∧ sys.ncores = 2) ∧
    System.launch [] = .error .noCoreInstance ∧
    System.launch [{ imem := [0, 0, 0, 0x7F], dmem := [] }, { imem := [0, 0, 0], dmem := [] }] =
      .error .instructionImageLength := ⟨⟨_, rfl, rfl⟩, rfl, rfl⟩

/-- One instance, which its own two requests stop, under the only schedule that names it alone. -/
theorem witness_FairSchedulesMakeProgress :
    ({ first := straightLine, rest := [] } : System).Fair (fun _ => 0) ∧
    ∀ s ∈ ({ first := straightLine, rest := [] } : System).cores, ∃ k, (requests k s).status ≠ .running := by
  refine ⟨fun n i s h _ => ?_, fun s h => ?_⟩
  · have hi := (List.getElem?_eq_some_iff.1 h).1
    have hn := System.ncores_after { first := straightLine, rest := [] } (fun _ => 0) n
    rw [System.ncores] at hn
    exact ⟨n, Nat.le_refl n, by rw [hn] at hi; exact (Nat.lt_one_iff.1 hi).symm⟩
  · simp only [System.cores, List.mem_cons, List.not_mem_nil, or_false] at h
    subst h
    exact ⟨2, by decide⟩

end Sys2Proof.Tests
end

section
/-! The Signed-Binary Codec (R10): its reading of a bit string is the library's two's-complement value. -/

namespace Sys2Proof.Machine

/-- The complement of `b` is `2 ^ n - 1 - b`, so the codec's "minus the complement plus one" is `b - 2 ^ n`. -/
@[simp] theorem codecDecode_eq_toInt {n : Nat} (b : BitVec n) : codecDecode b = b.toInt := by
  have hlt : b.toNat < 2 ^ n := b.isLt
  have hcast : ((2 ^ n : Nat) : Int) = 2 ^ n := Nat.cast_pow 2 n
  rw [codecDecode, BitVec.toInt_eq_msb_cond]
  split
  · rw [BitVec.toNat_not]
    omega
  · rfl

@[simp] theorem codecEncode_toInt (w : Word) : codecEncode w.toInt = w := BitVec.ofInt_toInt

/-- The signed range of a word is exactly what survives the reduction modulo `2 ^ 32`. -/
theorem toInt_codecEncode {v : Int} (hlo : -2147483648 ≤ v) (hhi : v ≤ 2147483647) : (codecEncode v).toInt = v :=
  BitVec.toInt_ofInt_eq_self (by decide) (by omega) (by omega)

/-- The leftmost bit of `b` is its sign: it decides whether `2 ^ n` is subtracted. -/
theorem codecDecode_eq_ite_leftmost {n : Nat} (b : BitVec n) :
    codecDecode b = if b.getLsbD (n - 1) then (b.toNat : Int) - 2 ^ n else (b.toNat : Int) := by
  rw [codecDecode_eq_toInt, BitVec.toInt_eq_msb_cond, BitVec.msb_eq_getLsbD_last, Nat.cast_pow, Nat.cast_ofNat]

theorem codecDecode_signExtend {n : Nat} (hn : n ≤ 32) (b : BitVec n) : codecDecode (b.signExtend 32) = codecDecode b := by
  rw [codecDecode_eq_toInt, codecDecode_eq_toInt, BitVec.toInt_signExtend_of_le hn]

theorem getLsbD_signExtend_leftmost {n k : Nat} (hk : k < 32) (b : BitVec n) :
    (b.signExtend 32).getLsbD k = if k < n then b.getLsbD k else b.getLsbD (n - 1) := by
  rw [BitVec.getLsbD_signExtend, BitVec.msb_eq_getLsbD_last, decide_eq_true hk, Bool.true_and]

/-- Settles O10: the codec is the two's-complement value, so each clause is one of the rules above. -/
theorem signedCodecRoundTrip : Obligations.SignedCodecRoundTrip := by
  unfold Obligations.SignedCodecRoundTrip
  refine ⟨fun n b _ => codecDecode_eq_ite_leftmost b, fun v hlo hhi => ?_, fun w => ?_, fun n b _ hn => ?_⟩
  · rw [codecDecode_eq_toInt, toInt_codecEncode hlo hhi]
  · rw [codecDecode_eq_toInt, codecEncode_toInt]
  · exact ⟨codecDecode_signExtend hn b, fun k hk => getLsbD_signExtend_leftmost hk b⟩

end Sys2Proof.Machine
end

section
/-! What each step leaves of the state of one core (10_state.md): the program counter (R25), the registers an
instruction reads and writes (R21, R22), and the data store (R35). -/

namespace Sys2Proof.Machine

/-! ### How an instruction ends -/

/-- The converse of the last case of `exec_cases`: HALT apart, an instruction whose data address, if it has one, is accepted
completes. -/
theorem exec_of_accepted {i : Instr} {s : State} (hi : i ≠ .halt)
    (hc : ∀ a, dataAddress s i = some a → s.dmem.accepts a = true) : exec i s = .next (commit (effectOf s i) s) := by
  cases ha : dataAddress s i with
  | none => exact exec_of_no_address s hi ha
  | some a => rw [exec_of_address ha, if_pos (hc a ha)]

/-- An instruction after which the core is still Running has completed. -/
theorem eq_commit_of_exec_running {i : Instr} {s t : State} (h : exec i s = .next t) (ht : t.status = .running) :
    t = commit (effectOf s i) s := by
  obtain ⟨-, rfl⟩ | ⟨a, -, -, rfl⟩ | ⟨-, -, ht⟩ := exec_cases h
  · cases ht
  · cases ht
  · exact ht

/-- R189: a step that ends Faulted is the raise of that error and nothing else. -/
theorem eq_raise_of_step_faulted {s t : State} {c : ErrorCause} (h : step s = .next t) (ht : t.status = .faulted c) :
    t = raise c s := by
  obtain ⟨hs, ⟨-, rfl⟩ | ⟨w, r, -, -, rfl⟩ | ⟨w, i, -, -, he⟩⟩ := step_cases h
  · cases ht; rfl
  · cases ht; rfl
  · obtain ⟨-, rfl⟩ | ⟨a, -, -, rfl⟩ | ⟨-, -, rfl⟩ := exec_cases he
    · cases ht
    · cases ht; rfl
    · rw [commit_status, hs] at ht
      cases ht

/-! ### The program counter (R25) -/

/-- The eleven instructions that neither transfer control nor halt go on at the next word. -/
theorem effectOf_nextPc_sequential {i : Instr} (s : State)
    (hi : i.mnemonic ∈ ["ADD", "SUB", "XOR", "OR", "AND", "ADDI", "XORI", "ORI", "ANDI", "LW", "SW"]) :
    (effectOf s i).nextPc = s.pc + 4#32 := by
  cases i with
  | beq rs1 rs2 off => simp [Instr.mnemonic] at hi
  | bne rs1 rs2 off => simp [Instr.mnemonic] at hi
  | jal rd off => simp [Instr.mnemonic] at hi
  | halt => simp [Instr.mnemonic] at hi
  | _ => rfl

/-- R92: the offset of a decoded branch is the word's B offset. -/
theorem off_eq_offB_of_decodeWord {w : Word} {rs1 rs2 : RegIdx} {off : Word}
    (h : decodeWord w = .ok (.beq rs1 rs2 off) ∨ decodeWord w = .ok (.bne rs1 rs2 off)) : off = offB w := by
  rcases h with h | h
  all_goals
    have fields := decodeWord_ok h
    simp only [reduceCtorEq, and_false, false_or, or_false, Instr.beq.injEq, Instr.bne.injEq] at fields
    obtain ⟨-, -, -, -, hoff⟩ := fields
    exact hoff

/-- R93: the offset of a decoded JAL is the word's J offset. -/
theorem off_eq_offJ_of_decodeWord {w : Word} {rd : RegIdx} {off : Word} (h : decodeWord w = .ok (.jal rd off)) :
    off = offJ w := by
  have fields := decodeWord_ok h
  simp only [reduceCtorEq, and_false, false_or, or_false, Instr.jal.injEq] at fields
  obtain ⟨-, -, hoff⟩ := fields
  exact hoff

/-- Settles O23: a completed instruction leaves the pc its effect asks for, and a raise leaves it alone. -/
theorem programCounterUpdate : Obligations.ProgramCounterUpdate := by
  unfold Obligations.ProgramCounterUpdate
  refine ⟨fun i s t _ h ht => ?_, fun s t h => ?_, fun s t c h ht => ?_, fun w rs1 rs2 off => off_eq_offB_of_decodeWord,
    fun w rd off => off_eq_offJ_of_decodeWord⟩
  · have hpc : t.pc = (effectOf s i).nextPc := congrArg State.pc (eq_commit_of_exec_running h ht)
    rw [hpc]
    refine ⟨?_, ?_, ?_, effectOf_nextPc_sequential s⟩
    · rintro rs1 rs2 off rfl
      rfl
    · rintro rs1 rs2 off rfl
      exact (ite_not ..).symm
    · rintro rd off rfl
      rfl
  · cases h
    rfl
  · rw [eq_raise_of_step_faulted h ht, raise_pc]

/-! ### The registers an instruction writes and reads (R22) -/

/-- An instruction asks for a register write exactly when the rule gives it a destination, and of that register. -/
theorem effectOf_regWrite_dest (s : State) (i : Instr) : (effectOf s i).regWrite.map Prod.fst = i.dest := by
  cases i <;> rfl

/-- A commit leaves every register but the one the effect writes. -/
theorem commit_reg_other {e : Effect} (s : State) {r : RegIdx} (h : e.regWrite.map Prod.fst ≠ some r) :
    (commit e s).reg r = s.reg r := by
  rw [commit_reg]
  split
  · rfl
  · rename_i q v he
    refine if_neg fun hr => h ?_
    rw [he, hr]
    rfl

/-- The register an effect writes holds the same afterwards, whatever the state it is committed in. -/
theorem commit_reg_written {e : Effect} (s s' : State) {r : RegIdx} (h : e.regWrite.map Prod.fst = some r) :
    (commit e s).reg r = (commit e s').reg r := by
  obtain ⟨⟨q, v⟩, he, rfl⟩ := Option.map_eq_some_iff.1 h
  simp [commit_reg, he]

/-- No instruction changes a register other than its destination. -/
theorem exec_reg_other {i : Instr} {s t : State} (h : exec i s = .next t) {r : RegIdx} (hr : i.dest ≠ some r) :
    t.reg r = s.reg r := by
  obtain ⟨-, rfl⟩ | ⟨a, -, -, rfl⟩ | ⟨-, -, rfl⟩ := exec_cases h
  · rfl
  · rfl
  · exact commit_reg_other s (by rwa [effectOf_regWrite_dest])

section SameSources
variable {i : Instr} {s s' : State} (hsrc : ∀ r, r ∈ i.sources → s'.reg r = s.reg r)
include hsrc

/-- The data address depends on no register but the sources. -/
theorem dataAddress_eq_of_sources : dataAddress s' i = dataAddress s i := by
  cases i <;> simp_all [dataAddress, Instr.sources]

/-- What an instruction asks for depends on no register but the sources. -/
theorem effectOf_eq_of_sources (hpc : s'.pc = s.pc) (hdm : s'.dmem = s.dmem) : effectOf s' i = effectOf s i := by
  cases i <;> simp_all [effectOf, Instr.sources]

end SameSources

/-- Settles O24: the destination is the only register a commit can change, and the two runs end alike because the data address
and the effect depend on the sources alone. -/
theorem registersReadAndWritten : Obligations.RegistersReadAndWritten := by
  unfold Obligations.RegistersReadAndWritten
  refine ⟨fun i s t h r hr => exec_reg_other h hr, fun i s t regs' _ hsrc h => ?_⟩
  have haddr : dataAddress { s with regs := regs' } i = dataAddress s i := dataAddress_eq_of_sources hsrc
  have heff : effectOf { s with regs := regs' } i = effectOf s i := effectOf_eq_of_sources hsrc rfl rfl
  obtain ⟨rfl, rfl⟩ | ⟨a, ha, hna, rfl⟩ | ⟨hi, hc, rfl⟩ := exec_cases h
  · exact ⟨_, exec_halt _, rfl, rfl, rfl, rfl, rfl, fun r hr => (by cases hr), fun r _ => rfl⟩
  · have hu : exec i { s with regs := regs' } = .next (raise (.outOfRange .data a) { s with regs := regs' }) := by
      rw [exec_of_address (haddr.trans ha), if_neg (by simp [hna])]
    exact ⟨_, hu, rfl, rfl, rfl, rfl, rfl, fun r _ hrun => (by cases hrun), fun r hr => exec_reg_other hu hr⟩
  · have hu : exec i { s with regs := regs' } = .next (commit (effectOf s i) { s with regs := regs' }) := by
      rw [exec_of_accepted hi (by rwa [haddr]), heff]
    refine ⟨_, hu, rfl, by simp, rfl, by simp, by simp [commit_dmem], fun r hr _ => ?_, fun r hr => exec_reg_other hu hr⟩
    exact commit_reg_written _ s (by rwa [effectOf_regWrite_dest])

/-! ### Register 0 (R21) -/

/-- ADD, in every operand form. -/
theorem exec_add_reg (rd rs1 rs2 : RegIdx) (s : State) :
    ∃ t, exec (.add rd rs1 rs2) s = .next t ∧ t.reg rd = s.reg rs1 + s.reg rs2 :=
  ⟨_, exec_of_no_address s (by simp) rfl, by simp [commit_reg, effectOf]⟩

/-- ADDI, in every operand form. -/
theorem exec_addi_reg (rd rs1 : RegIdx) (imm : Word) (s : State) :
    ∃ t, exec (.addi rd rs1 imm) s = .next t ∧ t.reg rd = s.reg rs1 + imm :=
  ⟨_, exec_of_no_address s (by simp) rfl, by simp [commit_reg, effectOf]⟩

/-- JAL, in every operand form. -/
theorem exec_jal_reg (rd : RegIdx) (off : Word) (s : State) :
    ∃ t, exec (.jal rd off) s = .next t ∧ t.reg rd = s.pc + 4#32 :=
  ⟨_, exec_of_no_address s (by simp) rfl, by simp [commit_reg, effectOf]⟩

/-- Settles O25: the destination rules hold for every index, so for 0. -/
theorem registerZeroIsOrdinary : Obligations.RegisterZeroIsOrdinary := by
  unfold Obligations.RegisterZeroIsOrdinary
  refine ⟨fun s v => reg_setReg_same s 0#5 v, fun s h0 => ?_, fun s off => exec_jal_reg 0#5 off s, fun s rs1 rs2 rd => ?_⟩
  · obtain ⟨t, h, ht⟩ := exec_addi_reg 0#5 0#5 5#32 s
    exact ⟨t, h, by rw [ht, h0]; rfl⟩
  · obtain ⟨t, h, ht⟩ := exec_add_reg 0#5 rs1 rs2 s
    obtain ⟨u, h', hu⟩ := exec_addi_reg rd 0#5 0#32 t
    exact ⟨t, u, h, ht, h', by rw [hu, ht, BitVec.add_zero]⟩

/-! ### The data store (R35) -/

/-- R55: writing a word "changes no other byte". -/
theorem readByte_writeWord_outside {st : Store} (hst : Memory.wf st.cells) {a b : Nat} (hb : b < a ∨ a + 4 ≤ b) (v : Word) :
    (st.writeWord a v).readByte b = st.readByte b := by
  rw [readByte_writeWord hst, if_neg (by omega), if_neg (by omega), if_neg (by omega), if_neg (by omega)]

/-- Everything an instruction can do to the data store: nothing, or the word write of a SW whose address was accepted. -/
theorem exec_dmem_cases {i : Instr} {s t : State} (h : exec i s = .next t) :
    t.dmem = s.dmem ∨
      ∃ rs1 rs2 imm, i = .sw rs1 rs2 imm ∧ s.dmem.accepts (s.reg rs1 + imm) = true ∧
        t.dmem = s.dmem.writeWord (s.reg rs1 + imm).toNat (s.reg rs2) := by
  obtain ⟨-, rfl⟩ | ⟨a, -, -, rfl⟩ | ⟨-, hc, rfl⟩ := exec_cases h
  · exact .inl rfl
  · exact .inl rfl
  · rw [commit_dmem]
    split
    · exact .inl rfl
    · rename_i a v hw
      obtain ⟨rs1, rs2, imm, rfl, rfl, rfl⟩ := effectOf_memWrite hw
      exact .inr ⟨rs1, rs2, imm, rfl, hc _ rfl, rfl⟩

/-- Everything a step can do to the data store: nothing, or the word write of the SW it executes. -/
theorem step_dmem_cases {s t : State} (h : step s = .next t) :
    t.dmem = s.dmem ∨
      ∃ rs1 rs2 imm, current s = some (.sw rs1 rs2 imm) ∧ s.dmem.accepts (s.reg rs1 + imm) = true ∧
        t.dmem = s.dmem.writeWord (s.reg rs1 + imm).toNat (s.reg rs2) := by
  obtain ⟨-, ⟨-, rfl⟩ | ⟨w, r, -, -, rfl⟩ | ⟨w, i, hf, hd, he⟩⟩ := step_cases h
  · exact .inl rfl
  · exact .inl rfl
  · obtain hk | ⟨rs1, rs2, imm, rfl, hw⟩ := exec_dmem_cases he
    · exact .inl hk
    · exact .inr ⟨rs1, rs2, imm, current_eq hf hd, hw⟩

/-- Settles O27: the only write a step makes to the data store is the accepted word write of its SW. -/
theorem dataStoreChangesOnlyByAlignedWords : Obligations.DataStoreChangesOnlyByAlignedWords := by
  unfold Obligations.DataStoreChangesOnlyByAlignedWords
  intro s t hwf h
  obtain hk | ⟨rs1, rs2, imm, hcur, hacc, hw⟩ := step_dmem_cases h
  · exact ⟨congrArg Store.size hk, .inl hk⟩
  · obtain ⟨halign, hin⟩ := (accepts_iff _ _).1 hacc
    rw [hw]
    exact ⟨writeWord_size .., .inr ⟨rs1, rs2, imm, hcur, halign, hin, fun b hb => readByte_writeWord_outside hwf.1 hb _⟩⟩

end Sys2Proof.Machine
end

section
/-! The two stores are separate (20_memory.md, R50): what an instruction does commutes with exchanging the instruction store,
and, LW and SW apart, with exchanging the data store. -/

namespace Sys2Proof.Machine

/-! ### The instruction store is never written -/

theorem exec_imem {i : Instr} {s t : State} (h : exec i s = .next t) : t.imem = s.imem := by
  obtain ⟨-, rfl⟩ | ⟨a, -, -, rfl⟩ | ⟨-, -, rfl⟩ := exec_cases h
  · rfl
  · rfl
  · exact commit_imem _ s

theorem step_imem {s t : State} (h : step s = .next t) : t.imem = s.imem := by
  obtain ⟨-, ⟨-, rfl⟩ | ⟨w, r, -, -, rfl⟩ | ⟨w, i, -, -, he⟩⟩ := step_cases h
  · rfl
  · rfl
  · exact exec_imem he

/-! ### A commit in a state with another store -/

theorem commit_with_imem (e : Effect) (s : State) (m : Store) :
    commit e { s with imem := m } = { commit e s with imem := m } := by
  obtain ⟨_ | regW, _ | memW, npc⟩ := e <;> rfl

theorem commit_with_dmem {e : Effect} (he : e.memWrite = none) (s : State) (m : Store) :
    commit e { s with dmem := m } = { commit e s with dmem := m } := by
  obtain ⟨_ | regW, memW, npc⟩ := e <;> cases he <;> rfl

/-! ### The instruction store is not read as data -/

/-- Neither the data address nor the effect depends on the instruction store, so both runs end alike. -/
theorem exec_with_imem {i : Instr} {s t : State} (h : exec i s = .next t) (m : Store) :
    exec i { s with imem := m } = .next { t with imem := m } := by
  have haddr : dataAddress { s with imem := m } i = dataAddress s i := dataAddress_eq_of_sources fun _ _ => rfl
  have heff : effectOf { s with imem := m } i = effectOf s i := effectOf_eq_of_sources (fun _ _ => rfl) rfl rfl
  obtain ⟨rfl, rfl⟩ | ⟨a, ha, hna, rfl⟩ | ⟨hi, hc, rfl⟩ := exec_cases h
  · rfl
  · rw [exec_of_address (haddr.trans ha), if_neg (by simp [hna])]
    rfl
  · rw [exec_of_accepted hi (by rwa [haddr]), heff, commit_with_imem]

/-! ### Only LW and SW touch the data store -/

/-- R140: an instruction other than LW and SW has no data address. -/
theorem dataAddress_eq_none {i : Instr} (hlw : i.mnemonic ≠ "LW") (hsw : i.mnemonic ≠ "SW") (s : State) :
    dataAddress s i = none := by
  cases i with
  | lw => exact absurd rfl hlw
  | sw => exact absurd rfl hsw
  | _ => rfl

section NoAddress
variable {i : Instr} {s : State} (ha : dataAddress s i = none)
include ha

theorem effectOf_memWrite_eq_none : (effectOf s i).memWrite = none := by
  refine Option.eq_none_iff_forall_ne_some.2 fun ⟨a, v⟩ hw => ?_
  obtain ⟨rs1, rs2, imm, rfl, -, -⟩ := effectOf_memWrite hw
  cases ha

/-- Only LW's effect takes anything from the data store. -/
theorem effectOf_with_dmem (m : Store) : effectOf { s with dmem := m } i = effectOf s i := by
  cases i with
  | lw => cases ha
  | _ => rfl

theorem exec_dmem_of_no_address {t : State} (h : exec i s = .next t) : t.dmem = s.dmem := by
  obtain hk | ⟨rs1, rs2, imm, rfl, -⟩ := exec_dmem_cases h
  · exact hk
  · cases ha

theorem exec_with_dmem {t : State} (h : exec i s = .next t) (m : Store) :
    exec i { s with dmem := m } = .next { t with dmem := m } := by
  have haddr : dataAddress { s with dmem := m } i = none := (dataAddress_eq_of_sources fun _ _ => rfl).trans ha
  obtain ⟨rfl, rfl⟩ | ⟨a, ha', -⟩ | ⟨hi, -, rfl⟩ := exec_cases h
  · rfl
  · cases ha.symm.trans ha'
  · rw [exec_of_no_address _ hi haddr, effectOf_with_dmem ha, commit_with_dmem (effectOf_memWrite_eq_none ha)]

end NoAddress

/-- Settles O26: every run ends in a halt, a raise or a commit, and each commutes with exchanging a store that the data
address and the effect do not depend on. -/
theorem storesAreSeparate : Obligations.StoresAreSeparate := by
  unfold Obligations.StoresAreSeparate
  refine ⟨fun i s t h => exec_imem h, fun s t h => step_imem h, fun i s t m h => exec_with_imem h m, fun s m => rfl,
    fun i s t m hlw hsw h => ?_⟩
  have ha : dataAddress s i = none := dataAddress_eq_none hlw hsw s
  exact ⟨exec_dmem_of_no_address ha h, exec_with_dmem ha h m⟩

end Sys2Proof.Machine
end

section
/-! The immediate instructions ADDI, XORI, ORI and ANDI (R130): the operand the decoder takes from the word, and what each
of the four does with it. -/

namespace Sys2Proof.Machine

/-! ### The I immediate (R90) -/

/-- The immediate of a decoded ADDI, XORI, ORI or ANDI is the word's I immediate. -/
theorem imm_eq_immI_of_decodeWord {w : Word} {rd rs1 : RegIdx} {imm : Word}
    (h : decodeWord w = .ok (.addi rd rs1 imm) ∨ decodeWord w = .ok (.xori rd rs1 imm) ∨
      decodeWord w = .ok (.ori rd rs1 imm) ∨ decodeWord w = .ok (.andi rd rs1 imm)) : imm = immI w := by
  rcases h with h | h | h | h
  all_goals
    have fields := decodeWord_ok h
    simp only [reduceCtorEq, and_false, false_or, or_false, Instr.addi.injEq, Instr.xori.injEq, Instr.ori.injEq,
      Instr.andi.injEq] at fields
    obtain ⟨-, -, -, -, himm⟩ := fields
    exact himm

/-- Sign extension keeps the value, so the immediate has the range of its 12-bit field. -/
theorem immI_toInt_bounds (w : Word) : -2048 ≤ (immI w).toInt ∧ (immI w).toInt ≤ 2047 := by
  have hval : (immI w).toInt = (w.extractLsb' 20 12).toInt := BitVec.toInt_signExtend_of_le (by decide)
  have hlo : -2 ^ 11 ≤ (w.extractLsb' 20 12).toInt := BitVec.le_toInt _
  have hhi : (w.extractLsb' 20 12).toInt < 2 ^ 11 := BitVec.toInt_lt
  omega

/-- A negative field has its leftmost bit set, and the extension copies that bit to every position above. -/
theorem upper_signExtend_of_negative {b : BitVec 12} (h : (b.signExtend 32).toInt < 0) :
    (b.signExtend 32).extractLsb' 12 20 = BitVec.allOnes 20 := by
  have hmsb : b.getLsbD 11 = true := by
    rw [BitVec.toInt_signExtend_of_le (by decide)] at h
    rw [← BitVec.msb_eq_getLsbD_last, BitVec.msb_eq_toInt, decide_eq_true h]
  refine BitVec.eq_of_getLsbD_eq fun k hk => ?_
  rw [BitVec.getLsbD_extractLsb', getLsbD_signExtend_leftmost (by omega), if_neg (by omega), hmsb,
    BitVec.getLsbD_allOnes, Bool.and_true]

/-! ### Completion, result and frame -/

/-- An instruction without a data address whose effect is the write of one register completes with that write alone. -/
theorem exec_wroteRegister {i : Instr} {s : State} {rd : RegIdx} {v npc : Word} (hi : i ≠ .halt)
    (ha : dataAddress s i = none) (he : effectOf s i = ⟨some (rd, v), none, npc⟩) :
    ∃ t, exec i s = .next t ∧ WroteRegister rd v npc s t := by
  refine ⟨_, exec_of_no_address s hi ha, ?_⟩
  rw [he]
  exact commit_wroteRegister rfl rfl rfl

/-- Settles O32: the decoded operand is the word's I immediate, and the effect of each of the four is one register write. -/
theorem immediateArithmetic : Obligations.ImmediateArithmetic := by
  unfold Obligations.ImmediateArithmetic
  refine ⟨fun w rd rs1 imm h => ?_, fun rd rs1 imm s => ⟨?addi, ?xori, ?ori, ?andi⟩⟩
  · obtain rfl : imm = immI w := imm_eq_immI_of_decodeWord h
    obtain ⟨hlo, hhi⟩ := immI_toInt_bounds w
    exact ⟨rfl, hlo, hhi, upper_signExtend_of_negative⟩
  case addi => exact exec_wroteRegister (by simp) rfl rfl
  case xori => exact exec_wroteRegister (by simp) rfl rfl
  case ori => exact exec_wroteRegister (by simp) rfl rfl
  case andi => exact exec_wroteRegister (by simp) rfl rfl

end Sys2Proof.Machine
end

section
/-! The decoder by opcode, and its agreement with the encoder (30_encoding.md). -/

namespace Sys2Proof.Machine

/-! ### Decoding by opcode (R81): the seven mapped opcodes differ, so each selects one branch of the decoder -/

section ByOpcode
variable {w : Word}

theorem decodeWordWith_of_opReg (loose : Bool) (h : fieldOpcode w = opReg) :
    decodeWordWith loose w = if loose then decodeRegLoose w else decodeRegStrict w := by
  rw [decodeWordWith, if_pos h]

theorem decodeWord_of_opReg (h : fieldOpcode w = opReg) : decodeWord w = decodeRegStrict w :=
  decodeWordWith_of_opReg false h

/-- RTYPE_LOOSE matters under the register opcode only (R95). -/
theorem decodeWordWith_of_ne_opReg (loose : Bool) (h : fieldOpcode w ≠ opReg) : decodeWordWith loose w = decodeWord w := by
  simp only [decodeWord_eq, decodeWordWith, if_neg h]

theorem decodeWord_of_opImm (h : fieldOpcode w = opImm) : decodeWord w = decodeImm w := by
  simp +decide [decodeWord_eq, decodeWordWith, h]

theorem decodeWord_of_opLoad (h : fieldOpcode w = opLoad) :
    decodeWord w = .ok (.lw (fieldRd w) (fieldRs1 w) (immI w)) := by
  simp +decide [decodeWord_eq, decodeWordWith, h]

theorem decodeWord_of_opStore (h : fieldOpcode w = opStore) :
    decodeWord w = .ok (.sw (fieldRs1 w) (fieldRs2 w) (immS w)) := by
  simp +decide [decodeWord_eq, decodeWordWith, h]

theorem decodeWord_of_opBranch (h : fieldOpcode w = opBranch) : decodeWord w = decodeBranch w := by
  simp +decide [decodeWord_eq, decodeWordWith, h]

theorem decodeWord_of_opJal (h : fieldOpcode w = opJal) : decodeWord w = .ok (.jal (fieldRd w) (offJ w)) := by
  simp +decide [decodeWord_eq, decodeWordWith, h]

theorem decodeWord_of_opHalt (h : fieldOpcode w = opHalt) : decodeWord w = .ok .halt := by
  simp +decide [decodeWord_eq, decodeWordWith, h]

/-- R101 (a). -/
theorem decodeWord_of_unmapped (h : fieldOpcode w ∉ [opReg, opImm, opLoad, opStore, opBranch, opJal, opHalt]) :
    decodeWord w = .error (.unmappedOpcode (fieldOpcode w)) := by
  simp only [List.mem_cons, List.not_mem_nil, or_false, not_or] at h
  simp only [decodeWord_eq, decodeWordWith, h, if_false]

end ByOpcode

/-! ### Decode after encode -/

/-- The canonical word of a well-formed instruction decodes to it, format by format. -/
theorem decodeWord_encodeWord {i : Instr} (h : i.wellFormed = true) : decodeWord (encodeWord i) = .ok i := by
  cases i with
  | add | sub | xor | or | and =>
    rw [encodeWord, decodeWord_of_opReg (fieldOpcode_encodeR ..)]
    simp +decide [decodeRegStrict]
  | addi | xori | ori | andi =>
    rw [encodeWord, decodeWord_of_opImm (fieldOpcode_encodeI ..)]
    simp +decide [decodeImm, immI_encodeI h]
  | lw => rw [encodeWord, decodeWord_of_opLoad (fieldOpcode_encodeI ..), fieldRd_encodeI, fieldRs1_encodeI, immI_encodeI h]
  | sw => rw [encodeWord, decodeWord_of_opStore (fieldOpcode_encodeS ..), fieldRs1_encodeS, fieldRs2_encodeS, immS_encodeS h]
  | beq | bne =>
    rw [encodeWord, decodeWord_of_opBranch (fieldOpcode_encodeB ..)]
    simp +decide [decodeBranch, offB_encodeB h]
  | jal => rw [encodeWord, decodeWord_of_opJal (fieldOpcode_encodeJ ..), fieldRd_encodeJ, offJ_encodeJ h]
  | halt => exact decodeWord_of_opHalt fieldOpcode_encodeHalt

/-- Four bytes that decode: the word they make up, and what follows them. -/
theorem decode_of_decodeWord {b0 b1 b2 b3 : Byte} {i : Instr} (h : decodeWord (wordOfBytes b0 b1 b2 b3) = .ok i)
    (rest : List Byte) : decode (b0 :: b1 :: b2 :: b3 :: rest) = .ok (i, rest) := by
  rw [decode, h]

/-- Settles O1: the decoder, run on each word. -/
theorem specWordsDecode : Obligations.SpecWordsDecode := by
  unfold Obligations.SpecWordsDecode
  decide

/-- Settles O2: the bytes of a word put together again are the word, and the canonical word decodes to its instruction. -/
theorem decodeOfEncode : Obligations.DecodeOfEncode := by
  unfold Obligations.DecodeOfEncode
  intro i rest h
  refine decode_of_decodeWord ?_ rest
  rw [wordOfBytes_wordByte, decodeWord_encodeWord h]

/-- Every decoded immediate and offset has the range and parity of its format (R90 to R93). -/
theorem wellFormed_of_decodeWord {w : Word} {i : Instr} (h : decodeWord w = .ok i) : i.wellFormed = true := by
  obtain ⟨-, -, -, rfl⟩ | ⟨-, -, -, rfl⟩ | ⟨-, -, -, rfl⟩ | ⟨-, -, -, rfl⟩ | ⟨-, -, -, rfl⟩ | ⟨-, -, rfl⟩ | ⟨-, -, rfl⟩ |
    ⟨-, -, rfl⟩ | ⟨-, -, rfl⟩ | ⟨-, rfl⟩ | ⟨-, rfl⟩ | ⟨-, -, rfl⟩ | ⟨-, -, rfl⟩ | ⟨-, rfl⟩ | ⟨-, rfl⟩ := decodeWord_ok h
  exacts [rfl, rfl, rfl, rfl, rfl, imm12Ok_immI w, imm12Ok_immI w, imm12Ok_immI w, imm12Ok_immI w, imm12Ok_immI w,
    imm12Ok_immS w, offBOk_offB w, offBOk_offB w, offJOk_offJ w, rfl]

/-- Settles O3: the decoded immediates are in range, so the canonical word decodes back. -/
theorem decodedInstructionsAreWellFormed : Obligations.DecodedInstructionsAreWellFormed := by
  unfold Obligations.DecodedInstructionsAreWellFormed
  intro w i h
  have hwf : i.wellFormed = true := wellFormed_of_decodeWord h
  exact ⟨hwf, decodeWord_encodeWord hwf⟩

/-! ### The opcode map (R104) -/

/-- A decoded word matches the row of its mnemonic: the mask compares just the fields the decoder tested. -/
theorem exists_row_of_decodeWord {w : Word} {i : Instr} (h : decodeWord w = .ok i) :
    ∃ row ∈ opcodeRows, row.mnemonic = i.mnemonic ∧ w &&& row.mask = row.pattern := by
  obtain ⟨ho, h7, h3, rfl⟩ | ⟨ho, h7, h3, rfl⟩ | ⟨ho, h7, h3, rfl⟩ | ⟨ho, h7, h3, rfl⟩ | ⟨ho, h7, h3, rfl⟩ |
    ⟨ho, h3, rfl⟩ | ⟨ho, h3, rfl⟩ | ⟨ho, h3, rfl⟩ | ⟨ho, h3, rfl⟩ | ⟨ho, rfl⟩ | ⟨ho, rfl⟩ | ⟨ho, h3, rfl⟩ |
    ⟨ho, h3, rfl⟩ | ⟨ho, rfl⟩ | ⟨ho, rfl⟩ := decodeWord_ok h
  · exact ⟨⟨"SUB", 0x40000033#32, 0xFE00707F#32⟩, by decide, rfl, (mask_register w _ (by decide)).2 ⟨ho, h3, h7⟩⟩
  · exact ⟨⟨"ADD", 0x00000033#32, 0xFE00707F#32⟩, by decide, rfl, (mask_register w _ (by decide)).2 ⟨ho, h3, h7⟩⟩
  · exact ⟨⟨"XOR", 0x00004033#32, 0xFE00707F#32⟩, by decide, rfl, (mask_register w _ (by decide)).2 ⟨ho, h3, h7⟩⟩
  · exact ⟨⟨"OR", 0x00006033#32, 0xFE00707F#32⟩, by decide, rfl, (mask_register w _ (by decide)).2 ⟨ho, h3, h7⟩⟩
  · exact ⟨⟨"AND", 0x00007033#32, 0xFE00707F#32⟩, by decide, rfl, (mask_register w _ (by decide)).2 ⟨ho, h3, h7⟩⟩
  · exact ⟨⟨"ADDI", 0x00000013#32, 0x0000707F#32⟩, by decide, rfl, (mask_funct3 w _ (by decide)).2 ⟨ho, h3⟩⟩
  · exact ⟨⟨"XORI", 0x00004013#32, 0x0000707F#32⟩, by decide, rfl, (mask_funct3 w _ (by decide)).2 ⟨ho, h3⟩⟩
  · exact ⟨⟨"ORI", 0x00006013#32, 0x0000707F#32⟩, by decide, rfl, (mask_funct3 w _ (by decide)).2 ⟨ho, h3⟩⟩
  · exact ⟨⟨"ANDI", 0x00007013#32, 0x0000707F#32⟩, by decide, rfl, (mask_funct3 w _ (by decide)).2 ⟨ho, h3⟩⟩
  · exact ⟨⟨"LW", 0x00000003#32, 0x0000007F#32⟩, by decide, rfl, (mask_opcode w _ (by decide)).2 ho⟩
  · exact ⟨⟨"SW", 0x00000023#32, 0x0000007F#32⟩, by decide, rfl, (mask_opcode w _ (by decide)).2 ho⟩
  · exact ⟨⟨"BEQ", 0x00000063#32, 0x0000707F#32⟩, by decide, rfl, (mask_funct3 w _ (by decide)).2 ⟨ho, h3⟩⟩
  · exact ⟨⟨"BNE", 0x00001063#32, 0x0000707F#32⟩, by decide, rfl, (mask_funct3 w _ (by decide)).2 ⟨ho, h3⟩⟩
  · exact ⟨⟨"JAL", 0x0000006F#32, 0x0000007F#32⟩, by decide, rfl, (mask_opcode w _ (by decide)).2 ho⟩
  · exact ⟨⟨"HALT", 0x0000007F#32, 0x0000007F#32⟩, by decide, rfl, (mask_opcode w _ (by decide)).2 ho⟩

/-- A word that matches a row decodes to an instruction of the row's mnemonic. -/
theorem decodeWord_of_row {w : Word} {row : OpcodeRow} (hrow : row ∈ opcodeRows) (h : w &&& row.mask = row.pattern) :
    ∃ i, decodeWord w = .ok i ∧ i.mnemonic = row.mnemonic := by
  simp only [opcodeRows, List.cons_append, List.nil_append, List.mem_cons, List.not_mem_nil, or_false] at hrow
  obtain rfl | rfl | rfl | rfl | rfl | rfl | rfl | rfl | rfl | rfl | rfl | rfl | rfl | rfl | rfl := hrow
  iterate 5
    obtain ⟨hop, h3, h7⟩ := (mask_register w _ (by decide)).1 h
    exact ⟨_, by rw [decodeWord_of_opReg hop, decodeRegStrict, h3, h7]; rfl, rfl⟩
  iterate 4
    obtain ⟨hop, h3⟩ := (mask_funct3 w _ (by decide)).1 h
    exact ⟨_, by rw [decodeWord_of_opImm hop, decodeImm, h3]; rfl, rfl⟩
  · exact ⟨_, decodeWord_of_opLoad ((mask_opcode w _ (by decide)).1 h), rfl⟩
  · exact ⟨_, decodeWord_of_opStore ((mask_opcode w _ (by decide)).1 h), rfl⟩
  iterate 2
    obtain ⟨hop, h3⟩ := (mask_funct3 w _ (by decide)).1 h
    exact ⟨_, by rw [decodeWord_of_opBranch hop, decodeBranch, h3]; rfl, rfl⟩
  · exact ⟨_, decodeWord_of_opJal ((mask_opcode w _ (by decide)).1 h), rfl⟩
  · exact ⟨_, decodeWord_of_opHalt ((mask_opcode w _ (by decide)).1 h), rfl⟩

/-- The fifteen rows carry fifteen mnemonics. -/
theorem opcodeRow_eq_of_mnemonic_eq :
    ∀ r1 ∈ opcodeRows, ∀ r2 ∈ opcodeRows, r1.mnemonic = r2.mnemonic → r1 = r2 := by decide

/-- Settles O4: forward by the row's fields; backward the decoded word matches a row of its mnemonic, and there is only one. -/
theorem decoderFollowsOpcodeMap : Obligations.DecoderFollowsOpcodeMap := by
  unfold Obligations.DecoderFollowsOpcodeMap
  refine fun w row hrow => ⟨decodeWord_of_row hrow, ?_⟩
  rintro ⟨i, hd, hm⟩
  obtain ⟨r, hr, hrm, hmatch⟩ := exists_row_of_decodeWord hd
  obtain rfl : r = row := opcodeRow_eq_of_mnemonic_eq r hr row hrow (hrm.trans hm)
  exact hmatch

/-- Settles O5: both rows carry the mnemonic of the one instruction the word decodes to. -/
theorem noWordMatchesTwoRows : Obligations.NoWordMatchesTwoRows := by
  unfold Obligations.NoWordMatchesTwoRows
  intro w r1 r2 hr1 hr2 h1 h2
  obtain ⟨i, hd, hm⟩ := decodeWord_of_row hr1 h1
  obtain ⟨j, hd', hm'⟩ := decodeWord_of_row hr2 h2
  obtain rfl : i = j := Except.ok.inj (hd.symm.trans hd')
  exact opcodeRow_eq_of_mnemonic_eq r1 hr1 r2 hr2 (hm.symm.trans hm')

end Sys2Proof.Machine
end

section
/-! The words the decoder rejects (R101), the bits it ignores (R88, R96, R97), the loose register format (R95) and the
immediates as integers (R90 to R93). -/

namespace Sys2Proof.Machine

/-! ### Rejected words (R101) -/

/-- R101 (b). -/
theorem decodeRegStrict_error_iff (w : Word) : (∃ r, decodeRegStrict w = .error r) ↔
    (fieldFunct7 w, fieldFunct3 w) ∉ [(0x20#7, 0#3), (0#7, 0#3), (0#7, 4#3), (0#7, 6#3), (0#7, 7#3)] := by
  simp only [List.mem_cons, List.not_mem_nil, or_false, Prod.mk.injEq, not_or]
  rw [decodeRegStrict]
  split_ifs <;> simp_all [funct7Sub, funct7Zero, funct3Add, funct3Xor, funct3Or, funct3And]

/-- R101 (c). -/
theorem decodeImm_error_iff (w : Word) : (∃ r, decodeImm w = .error r) ↔ fieldFunct3 w ∈ [1#3, 2#3, 3#3, 5#3] := by
  rw [decodeImm]
  generalize fieldFunct3 w = f3
  split_ifs <;> simp_all +decide
  revert f3
  decide

/-- R101 (d). -/
theorem decodeBranch_error_iff (w : Word) :
    (∃ r, decodeBranch w = .error r) ↔ fieldFunct3 w ∈ [2#3, 3#3, 4#3, 5#3, 6#3, 7#3] := by
  rw [decodeBranch]
  generalize fieldFunct3 w = f3
  split_ifs <;> simp_all +decide
  revert f3
  decide

/-- Settles O6: under a mapped opcode the word is rejected as its format is, and the raise is the whole step. -/
theorem illegalWordsRaiseDecodeError : Obligations.IllegalWordsRaiseDecodeError := by
  unfold Obligations.IllegalWordsRaiseDecodeError
  refine ⟨fun w => ?_, fun s w r hs hf hd => ⟨_, step_of_illegal hs hf hd, rfl⟩⟩
  change _ ↔ (fieldOpcode w ∉ [opReg, opImm, opLoad, opStore, opBranch, opJal, opHalt]) ∨
    (fieldOpcode w = opReg ∧ (fieldFunct7 w, fieldFunct3 w) ∉ _) ∨ (fieldOpcode w = opImm ∧ fieldFunct3 w ∈ _) ∨
    (fieldOpcode w = opBranch ∧ fieldFunct3 w ∈ _)
  rw [← decodeRegStrict_error_iff, ← decodeImm_error_iff, ← decodeBranch_error_iff]
  by_cases hmapped : fieldOpcode w ∈ [opReg, opImm, opLoad, opStore, opBranch, opJal, opHalt]
  · simp only [List.mem_cons, List.not_mem_nil, or_false] at hmapped
    obtain h | h | h | h | h | h | h := hmapped
    · simp +decide [h, decodeWord_of_opReg h]
    · simp +decide [h, decodeWord_of_opImm h]
    · simp +decide [h, decodeWord_of_opLoad h]
    · simp +decide [h, decodeWord_of_opStore h]
    · simp +decide [h, decodeWord_of_opBranch h]
    · simp +decide [h, decodeWord_of_opJal h]
    · simp +decide [h, decodeWord_of_opHalt h]
  · exact ⟨fun _ => .inl hmapped, fun _ => ⟨_, decodeWord_of_unmapped hmapped⟩⟩

/-! ### Ignored bits -/

/-- R88: only `inst[6:0]` of a word is its opcode. -/
theorem fieldOpcode_append (high : BitVec 25) (op : BitVec 7) : fieldOpcode (high ++ op) = op := by
  refine BitVec.eq_of_getLsbD_eq fun k hk => ?_
  rw [fieldOpcode, BitVec.getLsbD_extractLsb', BitVec.getLsbD_append]
  simp [hk]

/-- Settles O7: LW, SW and HALT are selected by the opcode alone. -/
theorem ignoredBitsDoNotMatter : Obligations.IgnoredBitsDoNotMatter := by
  unfold Obligations.IgnoredBitsDoNotMatter
  refine ⟨fun f3 rd rs1 imm h => ?lw, fun f3 rs1 rs2 imm h => ?sw, fun high => ?halt⟩
  case lw =>
    change decodeWord (encodeI opLoad f3 rd rs1 imm) = _
    rw [decodeWord_of_opLoad (fieldOpcode_encodeI ..), fieldRd_encodeI, fieldRs1_encodeI, immI_encodeI h]
  case sw => rw [decodeWord_of_opStore (fieldOpcode_encodeS ..), fieldRs1_encodeS, fieldRs2_encodeS, immS_encodeS h]
  case halt => exact decodeWord_of_opHalt (fieldOpcode_append high _)

/-! ### The loose register format (R95) -/

/-- The loose decoder answers as the strict one wherever that accepts. -/
theorem decodeRegLoose_of_strict {w : Word} {i : Instr} (h : decodeRegStrict w = .ok i) : decodeRegLoose w = .ok i := by
  rw [decodeRegStrict] at h
  split_ifs at h with hsub hadd hxor hor hand
  · rw [decodeRegLoose, if_pos hsub.1, h]
  · simpa +decide [decodeRegLoose, hadd] using h
  · simpa +decide [decodeRegLoose, hxor] using h
  · simpa +decide [decodeRegLoose, hor] using h
  · simpa +decide [decodeRegLoose, hand] using h

theorem decodeWordWith_true_of_strict {w : Word} {i : Instr} (h : decodeWordWith false w = .ok i) :
    decodeWordWith true w = .ok i := by
  by_cases hop : fieldOpcode w = opReg
  · rw [decodeWordWith_of_opReg _ hop] at h ⊢
    exact decodeRegLoose_of_strict h
  · rwa [decodeWordWith_of_ne_opReg _ hop] at h ⊢

/-- A funct3 is one of the eight values of three bits. -/
theorem funct3_cases (f3 : BitVec 3) :
    f3 = 0#3 ∨ f3 = 1#3 ∨ f3 = 2#3 ∨ f3 = 3#3 ∨ f3 = 4#3 ∨ f3 = 5#3 ∨ f3 = 6#3 ∨ f3 = 7#3 := by
  revert f3
  decide

theorem decodeWordWith_true_encodeR (f7 : BitVec 7) (f3 : BitVec 3) (rd rs1 rs2 : RegIdx) :
    decodeWordWith true (encodeR f7 f3 rd rs1 rs2) = decodeRegLoose (encodeR f7 f3 rd rs1 rs2) :=
  decodeWordWith_of_opReg true (fieldOpcode_encodeR ..)

/-- Settles O8: funct7 is tested for SUB first; then each of the eight values of funct3 selects its own instruction or none. -/
theorem looseDecodingExtendsStrict : Obligations.LooseDecodingExtendsStrict := by
  unfold Obligations.LooseDecodingExtendsStrict
  refine ⟨fun w i => decodeWordWith_true_of_strict, fun f3 rd rs1 rs2 => ?_, fun f7 f3 rd rs1 rs2 h7 => ?_⟩
  · rw [decodeWordWith_true_encodeR]
    simp +decide [decodeRegLoose]
  · rw [decodeWordWith_true_encodeR]
    replace h7 : f7 ≠ funct7Sub := h7
    obtain rfl | rfl | rfl | rfl | rfl | rfl | rfl | rfl := funct3_cases f3
    all_goals simp +decide [decodeRegLoose, h7]

/-! ### Immediates and offsets as integers -/

/-- Settles O9: sign extension keeps the signed value, and the appended zero bit doubles it. -/
theorem offsetsCountTwoByteUnits : Obligations.OffsetsCountTwoByteUnits := by
  unfold Obligations.OffsetsCountTwoByteUnits
  refine fun w => ⟨BitVec.toInt_signExtend_of_le (by decide), BitVec.toInt_signExtend_of_le (by decide), ?offB, ?offJ⟩
  case offB => rw [offB, BitVec.toInt_signExtend_of_le (by decide), toInt_append_zero]
  case offJ => rw [offJ, BitVec.toInt_signExtend_of_le (by decide), toInt_append_zero]

end Sys2Proof.Machine
end

section
/-! Reset and launch (70_reset_and_hazards.md): the reset state meets the invariant of every legal pair of stores, and a launch
loads both images byte for byte. -/

namespace Sys2Proof.Machine

/-- Settles O11: each field is one of the reset rules. -/
theorem resetLeaves : Obligations.ResetLeaves := by
  unfold Obligations.ResetLeaves
  exact fun im dm => ⟨resetWith_reg im dm, resetWith_pc im dm, resetWith_status im dm, resetWith_cycle im dm,
    resetWith_imem im dm, resetWith_dmem im dm⟩

/-- Reset meets the invariant whatever legal stores are loaded, since PC_RESET is even. -/
theorem resetWith_inv {im dm : Store} (him : Store.wf im) (hdm : Store.wf dm)
    (himSize : im.size % 4 = 0 ∧ 4 ≤ im.size ∧ im.size ≤ Config.maxStoreSize) (hdmSize : dm.size ≤ Config.maxStoreSize) :
    Inv (State.resetWith im dm) :=
  ⟨him, hdm, himSize, hdmSize, rfl⟩

theorem blank_wf : Store.wf Store.blank := by decide

/-- Settles O12: the blank store is legal. -/
theorem resetMeetsInv : Obligations.ResetMeetsInv := by
  unfold Obligations.ResetMeetsInv
  exact resetWith_inv blank_wf blank_wf (by decide) (by decide)

/-! ### The loaded stores (R41, R68) -/

/-- The images a launch accepts (R6, R212, decision D6): both of a legal length. -/
def LegalImages (imemInit dmemInit : List Byte) : Prop :=
  imemInit.length % 4 = 0 ∧ 4 ≤ imemInit.length ∧ imemInit.length ≤ 2147483648 ∧ dmemInit.length ≤ 2147483648

/-- Everything a launch can answer with a state: the images are legal and the core is in their reset state. -/
theorem launch_eq_ok_iff {imemInit dmemInit : List Byte} {s : State} : launch imemInit dmemInit = .ok s ↔
    LegalImages imemInit dmemInit ∧ s = State.resetWith (Store.ofBytes imemInit) (Store.ofBytes dmemInit) := by
  rw [launch, LegalImages, Config.maxStoreSize]
  split_ifs with hlen hsize
  · exact ⟨fun h => (by cases h), fun h => (by omega)⟩
  · exact ⟨fun h => (by cases h), fun h => (by omega)⟩
  · exact ⟨fun h => ⟨by omega, (Except.ok.inj h).symm⟩, fun h => congrArg Except.ok h.2.symm⟩

theorem exists_launch_iff (imemInit dmemInit : List Byte) :
    (∃ s, launch imemInit dmemInit = .ok s) ↔ LegalImages imemInit dmemInit := by
  simp [launch_eq_ok_iff]

@[simp] theorem ofBytes_size (image : List Byte) : (Store.ofBytes image).size = image.length := rfl

theorem readByte_ofBytes {image : List Byte} {k : Nat} (hk : k < image.length) :
    (Store.ofBytes image).readByte k = image[k] := by
  have h := read_ofBytes 0 image k hk
  rwa [Nat.zero_add] at h

/-- Dumping a loaded store gives its image back. -/
theorem dump_ofBytes (image : List Byte) : (Store.ofBytes image).dump = image := by
  refine List.ext_getElem (by simp [Store.dump]) fun k _ hk => ?_
  simp [Store.dump, readByte_ofBytes hk]

/-- Settles O13: the checks of a launch are the legal lengths, and loaded stores are canonical and dump their images. -/
theorem launchLoadsBothImages : Obligations.LaunchLoadsBothImages := by
  unfold Obligations.LaunchLoadsBothImages
  refine fun imemInit dmemInit => ⟨exists_launch_iff imemInit dmemInit, fun s h => ?_⟩
  obtain ⟨⟨halign, hmin, himax, hdmax⟩, rfl⟩ := launch_eq_ok_iff.1 h
  have hinv := resetWith_inv (store_ofBytes_wf imemInit) (store_ofBytes_wf dmemInit) ⟨halign, hmin, himax⟩ hdmax
  exact ⟨hinv, dump_ofBytes imemInit, dump_ofBytes dmemInit, rfl, rfl, rfl⟩

/-! ### Fetching the word at the pc (R52) -/

theorem fetch_of_inRange {s : State} (h : InRange s.imem.size s.pc) : fetch s = .ok (s.imem.readWord s.pc.toNat) := by
  rw [fetch_eq, if_pos ((accepts_iff_inRange ..).2 h)]

theorem fetch_of_not_inRange {s : State} (h : ¬ InRange s.imem.size s.pc) : fetch s = .error (.outOfRange .fetch s.pc) := by
  rw [fetch_eq, accepts_eq_false h]
  rfl

/-- Four bytes decode just as the word they make up. -/
theorem decodeWord_of_decode {b0 b1 b2 b3 : Byte} {i : Instr} {rest : List Byte}
    (h : decode [b0, b1, b2, b3] = .ok (i, rest)) : decodeWord (wordOfBytes b0 b1 b2 b3) = .ok i := by
  rw [decode] at h
  cases hd : decodeWord (wordOfBytes b0 b1 b2 b3) with
  | ok j => rw [hd] at h; cases h; rfl
  | error r => rw [hd] at h; cases h

/-- Settles O17: the word at the pc is made up of these four bytes, and what decodes is well-formed. -/
theorem stepRunsDecodedInstruction : Obligations.StepRunsDecodedInstruction := by
  unfold Obligations.StepRunsDecodedInstruction
  intro s i hs hpc hdec
  have hd : decodeWord (s.imem.readWord s.pc.toNat) = .ok i := decodeWord_of_decode hdec
  exact ⟨step_of_decoded hs (fetch_of_inRange hpc) hd, wellFormed_of_decodeWord hd⟩

/-- Settles O14: PC_RESET is 0, where the loaded store holds the image's first four bytes. -/
theorem firstInstructionIsAtAddressZero : Obligations.FirstInstructionIsAtAddressZero := by
  unfold Obligations.FirstInstructionIsAtAddressZero
  intro b0 b1 b2 b3 more dmemInit s h
  obtain ⟨-, rfl⟩ := launch_eq_ok_iff.1 h
  have hword : (Store.ofBytes (b0 :: b1 :: b2 :: b3 :: more)).readWord 0 = wordOfBytes b0 b1 b2 b3 := by
    simp [Store.readWord, readByte_ofBytes]
  have hf : fetch (State.resetWith (Store.ofBytes (b0 :: b1 :: b2 :: b3 :: more)) (Store.ofBytes dmemInit)) =
      .ok (wordOfBytes b0 b1 b2 b3) := by
    rw [fetch_of_inRange ⟨by simp [Config.pcReset], by simp [Config.pcReset]⟩]
    exact congrArg Except.ok hword
  exact ⟨hf, fun i hdec => step_of_decoded rfl hf (decodeWord_of_decode hdec)⟩

end Sys2Proof.Machine
end

section
/-! What a step can do, in one list, and the rules of 44_halt_step_loop.md and 60_exceptions.md that follow from it. -/

namespace Sys2Proof.Machine

/-- The five ways a step ends (R164, R188): it raises at fetch, at decode or at the data access, it halts, or the decoded
instruction completes. `stepEnds_of_step` ties this to `step`. -/
inductive StepEnds (s : State) : State → Prop
  | badFetch (hpc : ¬ InRange s.imem.size s.pc) : StepEnds s (raise (.outOfRange .fetch s.pc) s)
  | illegal {w : Word} {r : Reject} (hf : fetch s = .ok w) (hd : decodeWord w = .error r) :
      StepEnds s (raise (.decodeError w) s)
  | badData {i : Instr} {a : Word} (hcur : current s = some i) (ha : dataAddress s i = some a)
      (hna : ¬ InRange s.dmem.size a) : StepEnds s (raise (.outOfRange .data a) s)
  | halts (hcur : current s = some .halt) : StepEnds s { s with status := .halted }
  | completes {i : Instr} (hcur : current s = some i) (hwf : i.wellFormed = true)
      (hacc : ∀ a, dataAddress s i = some a → InRange s.dmem.size a) : StepEnds s (commit (effectOf s i) s)

theorem stepEnds_of_step {s t : State} (h : step s = .next t) : StepEnds s t := by
  obtain ⟨-, ⟨hpc, rfl⟩ | ⟨w, r, hf, hd, rfl⟩ | ⟨w, i, hf, hd, he⟩⟩ := step_cases h
  · exact .badFetch (not_inRange_of_accepts hpc)
  · exact .illegal hf hd
  · have hcur : current s = some i := current_eq hf hd
    obtain ⟨rfl, rfl⟩ | ⟨a, ha, hna, rfl⟩ | ⟨-, hc, rfl⟩ := exec_cases he
    · exact .halts hcur
    · exact .badData hcur ha (not_inRange_of_accepts hna)
    · exact .completes hcur (wellFormed_of_decodeWord hd) fun a ha => (accepts_iff_inRange ..).1 (hc a ha)

theorem running_of_step {s t : State} (h : step s = .next t) : s.status = .running := (step_cases h).1

/-! ### Fetch and the current instruction -/

theorem exists_fetch_iff (s : State) : (∃ w, fetch s = .ok w) ↔ InRange s.imem.size s.pc := by
  refine ⟨fun ⟨w, hf⟩ => ?_, fun h => ⟨_, fetch_of_inRange h⟩⟩
  by_contra hpc
  cases hf.symm.trans (fetch_of_not_inRange hpc)

theorem inRange_of_fetch {s : State} {w : Word} (hf : fetch s = .ok w) : InRange s.imem.size s.pc :=
  (exists_fetch_iff s).1 ⟨w, hf⟩

/-- The converse of `current_eq`: there is a current instruction only where fetch and decode succeed. -/
theorem current_eq_some {s : State} {i : Instr} (h : current s = some i) :
    ∃ w, fetch s = .ok w ∧ decodeWord w = .ok i := by
  unfold current at h
  split at h
  · cases h
  · rename_i w hf
    split at h
    · cases h
    · rename_i j hd
      cases h
      exact ⟨w, hf, hd⟩

theorem inRange_of_current {s : State} {i : Instr} (h : current s = some i) : InRange s.imem.size s.pc := by
  obtain ⟨w, hf, -⟩ := current_eq_some h
  exact inRange_of_fetch hf

theorem current_of_not_inRange {s : State} (h : ¬ InRange s.imem.size s.pc) : current s = none :=
  Option.eq_none_iff_forall_ne_some.2 fun _ hcur => h (inRange_of_current hcur)

theorem current_of_illegal {s : State} {w : Word} {r : Reject} (hf : fetch s = .ok w) (hd : decodeWord w = .error r) :
    current s = none := by
  rw [current, hf]
  simp only [hd]

/-- The word fetched for the current instruction is not an illegal one. -/
theorem not_illegal_of_current {s : State} {i : Instr} (h : current s = some i) :
    ∀ w, fetch s = .ok w → ∀ r, decodeWord w ≠ .error r := by
  intro w hf r hd
  cases (current_of_illegal hf hd).symm.trans h

/-! ### The invariant -/

/-- Every pc an encoded instruction goes on at is even (R92, R93). -/
theorem effectOf_nextPc_even {i : Instr} {s : State} (hwf : i.wellFormed = true) (hpc : s.pc.toNat % 2 = 0) :
    (effectOf s i).nextPc.toNat % 2 = 0 := by
  have hseq : (s.pc + 4#32).toNat % 2 = 0 := by
    rw [BitVec.toNat_add]
    simp only [BitVec.toNat_ofNat]
    omega
  have hrel : ∀ off, evenOffset off = true → (s.pc + off).toNat % 2 = 0 := by
    intro off hoff
    have hlow : off.toNat % 2 = 0 := by simpa [evenOffset, BitVec.getLsbD, Nat.testBit_zero] using hoff
    rw [BitVec.toNat_add]
    omega
  cases i with
  | beq rs1 rs2 off =>
    have hoff : evenOffset off = true := (Bool.and_eq_true_iff.1 hwf).2
    change (if s.reg rs1 = s.reg rs2 then s.pc + off else s.pc + 4#32).toNat % 2 = 0
    split
    · exact hrel off hoff
    · exact hseq
  | bne rs1 rs2 off =>
    have hoff : evenOffset off = true := (Bool.and_eq_true_iff.1 hwf).2
    change (if s.reg rs1 = s.reg rs2 then s.pc + 4#32 else s.pc + off).toNat % 2 = 0
    split
    · exact hseq
    · exact hrel off hoff
  | jal rd off => exact hrel off (Bool.and_eq_true_iff.1 hwf).2
  | halt => exact hpc
  | _ => exact hseq

/-- A completed instruction keeps the invariant: its only write is an accepted word write, and its next pc is even. -/
theorem commit_inv {i : Instr} {s : State} (hs : Inv s) (hwf : i.wellFormed = true)
    (hacc : ∀ a, dataAddress s i = some a → InRange s.dmem.size a) : Inv (commit (effectOf s i) s) := by
  obtain ⟨hdm, hsize⟩ := commit_dmem_wf (e := effectOf s i) hs.dmemWf
    (memWrite_accepted fun a ha => (accepts_iff_inRange ..).2 (hacc a ha))
  refine ⟨?_, hdm, ?_, ?_, effectOf_nextPc_even hwf hs.pcEven⟩
  · rw [commit_imem]
    exact hs.imemWf
  · rw [commit_imem]
    exact hs.imemSize
  · rw [hsize]
    exact hs.dmemSize

/-- The invariant does not speak of the status, so a raise and a halt keep it. -/
theorem inv_with_status {s : State} (hs : Inv s) (st : Status) : Inv { s with status := st } :=
  ⟨hs.imemWf, hs.dmemWf, hs.imemSize, hs.dmemSize, hs.pcEven⟩

/-- Settles O15: of the five ways a step ends only a completion changes more than the status, and it keeps the invariant. -/
theorem stepKeepsInv : Obligations.StepKeepsInv := by
  unfold Obligations.StepKeepsInv
  intro s t hs h
  cases stepEnds_of_step h with
  | badFetch => exact inv_with_status hs _
  | illegal => exact inv_with_status hs _
  | badData => exact inv_with_status hs _
  | halts => exact inv_with_status hs _
  | completes _ hwf hacc => exact commit_inv hs hwf hacc

/-! ### Stops explain themselves (R163, R186, R189) -/

/-- Settles O16: a stop leaves the pc, so the fetched word and the current instruction, and records what held there. -/
theorem stepExplainsStatus : Obligations.StepExplainsStatus := by
  unfold Obligations.StepExplainsStatus
  intro s t h
  cases stepEnds_of_step h with
  | badFetch hpc => exact ⟨rfl, hpc⟩
  | illegal hf hd => exact ⟨hf, _, hd⟩
  | badData hcur ha hna => exact ⟨_, hcur, ha, hna⟩
  | halts hcur => exact hcur
  | completes =>
    rw [StatusExplained, commit_status, running_of_step h]
    trivial

/-- Settles O18: the fetch tests just this range, and its error is the whole step. -/
theorem fetchOutOfRange : Obligations.FetchOutOfRange := by
  unfold Obligations.FetchOutOfRange
  exact ⟨exists_fetch_iff, fun s hs hpc => ⟨_, step_of_bad_fetch hs (accepts_eq_false hpc), rfl⟩⟩

/-- Only LW and SW have a data address, `x[rs1] + imm` (R140). -/
theorem dataAddress_eq_some {i : Instr} {s : State} {a : Word} (h : dataAddress s i = some a) :
    (∃ rd rs1 imm, i = .lw rd rs1 imm ∧ a = s.reg rs1 + imm) ∨ (∃ rs1 rs2 imm, i = .sw rs1 rs2 imm ∧ a = s.reg rs1 + imm) := by
  cases i with
  | lw rd rs1 imm => exact .inl ⟨rd, rs1, imm, rfl, (Option.some.inj h).symm⟩
  | sw rs1 rs2 imm => exact .inr ⟨rs1, rs2, imm, rfl, (Option.some.inj h).symm⟩
  | _ => cases h

/-- An instruction whose data address is out of range raises, and that is all it does (R183). -/
theorem exec_of_not_inRange {i : Instr} {s : State} {a : Word} (ha : dataAddress s i = some a)
    (hna : ¬ InRange s.dmem.size a) : exec i s = .next (raise (.outOfRange .data a) s) := by
  rw [exec_of_address ha, accepts_eq_false hna]
  rfl

/-- Settles O19: the raise at the data address is the only one among the ends of an instruction. -/
theorem dataAccessOutOfRange : Obligations.DataAccessOutOfRange := by
  unfold Obligations.DataAccessOutOfRange
  refine ⟨fun s rd rs1 imm h => ⟨_, exec_of_not_inRange rfl h, rfl⟩, fun s rs1 rs2 imm h => ⟨_, exec_of_not_inRange rfl h, rfl⟩,
    fun i s t c hs h ht => ?_⟩
  obtain ⟨-, rfl⟩ | ⟨a, ha, hna, rfl⟩ | ⟨-, -, rfl⟩ := exec_cases h
  · cases ht
  · cases ht
    exact ⟨a, dataAddress_eq_some ha, not_inRange_of_accepts hna, rfl⟩
  · rw [commit_status, hs] at ht
    cases ht

/-- Settles O20: a step that ends Faulted is a raise. -/
theorem raisingChangesOnlyTheStatus : Obligations.RaisingChangesOnlyTheStatus := by
  unfold Obligations.RaisingChangesOnlyTheStatus
  exact fun s t c h ht => eq_raise_of_step_faulted h ht

/-! ### Running cores step, others do not -/

theorem step_of_halted {s : State} (h : s.status = .halted) : step s = .fault .haltedCore := by
  rw [step, h]

theorem step_of_faulted {s : State} {c : ErrorCause} (h : s.status = .faulted c) : step s = .fault (.faultedCore c) := by
  rw [step, h]

/-- A Running core always steps: each of fetch, decode and execution answers a next state (R160). -/
theorem exists_step_of_running {s : State} (hs : s.status = .running) : ∃ t, step s = .next t := by
  by_cases hpc : InRange s.imem.size s.pc
  · have hf := fetch_of_inRange hpc
    cases hd : decodeWord (s.imem.readWord s.pc.toNat) with
    | ok i => rw [step_of_decoded hs hf hd]; exact exec_total i s
    | error r => exact ⟨_, step_of_illegal hs hf hd⟩
  · exact ⟨_, step_of_bad_fetch hs (accepts_eq_false hpc)⟩

/-- Settles O21: a Running core always steps, and the other two statuses are tested before anything else. -/
theorem onlyRunningCoresStep : Obligations.OnlyRunningCoresStep := by
  unfold Obligations.OnlyRunningCoresStep
  exact ⟨fun s => ⟨exists_step_of_running, fun ⟨t, h⟩ => running_of_step h⟩, fun s => step_of_halted, fun s c => step_of_faulted,
    fun n s h => requests_of_not_running h n⟩

/-- The step left the core Running exactly when the instruction completed, so it counted (R32). -/
theorem cycle_of_step {s t : State} (h : step s = .next t) :
    t.cycle = if t.status = .running then s.cycle + 1 else s.cycle := by
  have hs := running_of_step h
  cases stepEnds_of_step h with
  | badFetch => rfl
  | illegal => rfl
  | badData => rfl
  | halts => rfl
  | completes => rw [commit_status, if_pos hs, commit_cycle]

/-- Settles O22: only a completed step counts. -/
theorem cycleCountsCompletedSteps : Obligations.CycleCountsCompletedSteps := by
  unfold Obligations.CycleCountsCompletedSteps
  exact fun s t => cycle_of_step

/-! ### The register file's boundary (R184) -/

theorem checkIndex_of_lt {n : Nat} (h : n < 32) : checkIndex n = .ok (BitVec.ofNat 5 n) := if_pos h

theorem checkIndex_of_le {n : Nat} (h : 32 ≤ n) : checkIndex n = .error .invalidRegisterIndex := if_neg (by omega)

/-- The index survives the reduction to five bits. -/
theorem toNat_ofNat_index {n : Nat} (h : n < 32) : (BitVec.ofNat 5 n).toNat = n := by
  rw [BitVec.toNat_ofNat, Nat.mod_eq_of_lt (by simpa using h)]

/-- Settles O28: both ports check the index first, and InvalidRegisterIndex is not the cause in any end of a step. -/
theorem invalidRegisterIndexIsUnreachable : Obligations.InvalidRegisterIndexIsUnreachable := by
  unfold Obligations.InvalidRegisterIndexIsUnreachable
  refine ⟨fun s n v h => ?_, fun s n v h => ⟨?_, BitVec.ofNat 5 n, ?_, toNat_ofNat_index h⟩, fun s t h ht => ?_⟩
  · simp [readPort, writePort, checkIndex_of_le h]
  · simp [readPort, checkIndex_of_lt h, State.reg, toNat_ofNat_index h]
  · simp [writePort, checkIndex_of_lt h]
  · have hexp : StatusExplained t := stepExplainsStatus s t h
    rw [StatusExplained, ht] at hexp
    exact hexp

/-! ### The snapshot (R198) -/

/-- A Running state's snapshot is what the rule lists. -/
theorem snapshot_eq_iff {t : State} (ht : t.status = .running) (p : Snapshot) :
    t.snapshot = p ↔ p.cycle = t.cycle ∧ p.regs = t.regs ∧ p.pc = t.pc ∧ p.halted = false := by
  obtain ⟨cycle, regs, pc, halted⟩ := p
  have hhalt : (t.status == .halted) = false := by rw [ht]; rfl
  simp [State.snapshot, hhalt, eq_comm]

theorem stepSnapshot_eq_some_iff (s : State) (p : Snapshot) :
    stepSnapshot s = some p ↔ ∃ t, step s = .next t ∧ t.status = .running ∧ t.snapshot = p := by
  rw [stepSnapshot]
  cases step s <;> simp

/-- Settles O29: the snapshot is that of the Running next state, whose cycle is one more. -/
theorem snapshotAfterCompletedSteps : Obligations.SnapshotAfterCompletedSteps := by
  unfold Obligations.SnapshotAfterCompletedSteps
  intro s p
  rw [stepSnapshot_eq_some_iff]
  refine exists_congr fun t => and_congr_right fun h => and_congr_right fun ht => ?_
  rw [snapshot_eq_iff ht, cycle_of_step h, if_pos ht]

/-! ### Error numbers (R185) -/

/-- Settles O44: each end of a step meets exactly one of the three conditions, since a current instruction excludes a bad fetch
and an illegal word. -/
theorem errorCodesNameTheError : Obligations.ErrorCodesNameTheError := by
  unfold Obligations.ErrorCodesNameTheError
  intro s t h
  cases stepEnds_of_step h with
  | badFetch hpc =>
    have hnf : ∀ w, fetch s ≠ .ok w := fun w hf => hpc (inRange_of_fetch hf)
    simp [Status.errorCode, ErrorCause.code, current_of_not_inRange hpc, hpc, hnf]
  | @illegal w r hf hd =>
    simp [Status.errorCode, ErrorCause.code, current_of_illegal hf hd, inRange_of_fetch hf, hf, hd]
  | badData hcur ha hna =>
    simpa [Status.errorCode, ErrorCause.code, inRange_of_current hcur, hcur, ha, hna] using not_illegal_of_current hcur
  | halts hcur =>
    simpa [Status.errorCode, inRange_of_current hcur, hcur, dataAddress] using not_illegal_of_current hcur
  | @completes i hcur hwf hacc =>
    simpa [running_of_step h, Status.errorCode, inRange_of_current hcur, hcur] using ⟨hacc, not_illegal_of_current hcur, hacc⟩

end Sys2Proof.Machine
end

section
/-! The result and the frame of each instruction (40_alu_register.md, 42_load_store.md, 43_branch_jump.md,
44_halt_step_loop.md), read off its effect. -/

namespace Sys2Proof.Machine

/-! ### Register results -/

/-- The reduction of an integer sum to 32 bits is the sum of the words (R121). -/
theorem ofInt_toInt_add (a b : Word) : BitVec.ofInt 32 (a.toInt + b.toInt) = a + b := by
  rw [BitVec.ofInt_add, BitVec.ofInt_toInt, BitVec.ofInt_toInt]

theorem ofInt_toInt_sub (a b : Word) : BitVec.ofInt 32 (a.toInt - b.toInt) = a - b := by
  rw [sub_eq_add_neg, BitVec.ofInt_add, BitVec.ofInt_neg, BitVec.ofInt_toInt, BitVec.ofInt_toInt, BitVec.sub_eq_add_neg]

/-- Settles O30: the effect writes the wrapped sum or difference, and nothing else. -/
theorem addAndSubWrap : Obligations.AddAndSubWrap := by
  unfold Obligations.AddAndSubWrap
  intro rd rs1 rs2 s
  rw [ofInt_toInt_add, ofInt_toInt_sub]
  exact ⟨exec_wroteRegister (by simp) rfl rfl, exec_wroteRegister (by simp) rfl rfl⟩

/-- A register result given bit by bit. -/
theorem onlyRegister_and_bits {i : Instr} {rd : RegIdx} {v npc : Word} {s : State} {bit : Nat → Bool}
    (h : ∃ t, exec i s = .next t ∧ WroteRegister rd v npc s t) (hv : ∀ k, v.getLsbD k = bit k) :
    ∃ t, exec i s = .next t ∧ OnlyRegister rd npc s t ∧ ∀ k, k < 32 → (t.reg rd).getLsbD k = bit k := by
  obtain ⟨t, he, hr, hframe⟩ := h
  exact ⟨t, he, hframe, fun k _ => by rw [hr, hv]⟩

/-- Settles O31: the effect writes the bitwise result, and the library's operations act bit by bit. -/
theorem bitwiseRegisterOperations : Obligations.BitwiseRegisterOperations := by
  unfold Obligations.BitwiseRegisterOperations
  refine fun rd rs1 rs2 s => ⟨?xor, ?or, ?and⟩
  case xor => exact onlyRegister_and_bits (exec_wroteRegister (by simp) rfl rfl) fun k => BitVec.getLsbD_xor
  case or => exact onlyRegister_and_bits (exec_wroteRegister (by simp) rfl rfl) fun k => BitVec.getLsbD_or
  case and => exact onlyRegister_and_bits (exec_wroteRegister (by simp) rfl rfl) fun k => BitVec.getLsbD_and

/-- Settles O37: link value and target are those of the effect. -/
theorem jumpAndLinkResult : Obligations.JumpAndLinkResult := by
  unfold Obligations.JumpAndLinkResult
  exact fun rd off s => exec_wroteRegister (by simp) rfl rfl

/-! ### Branches -/

/-- The frame of a commit that writes neither a register nor memory. -/
theorem commit_onlyPc (npc : Word) (s : State) : OnlyPc npc s (commit ⟨none, none, npc⟩ s) :=
  ⟨fun r => commit_reg _ s r, commit_pc _ s, commit_storesKept _ s rfl⟩

/-- R126: equality compares all 32 bits. -/
theorem eq_iff_all_bits (a b : Word) : (∀ k, k < 32 → a.getLsbD k = b.getLsbD k) ↔ a = b :=
  ⟨BitVec.eq_of_getLsbD_eq, fun h _ _ => by rw [h]⟩

/-- Settles O36: the effect of a branch is its next pc alone, chosen by equality of the two words. -/
theorem branchesMoveOnlyThePc : Obligations.BranchesMoveOnlyThePc := by
  unfold Obligations.BranchesMoveOnlyThePc
  intro rs1 rs2 off s
  simp only [eq_iff_all_bits]
  exact ⟨⟨_, exec_of_no_address s (by simp) rfl, commit_onlyPc _ s⟩, ⟨_, exec_of_no_address s (by simp) rfl, commit_onlyPc _ s⟩⟩

/-- A fetch depends on the pc and the instruction store alone. -/
theorem fetch_of_target {s t : State} {target : Word} (hpc : t.pc = target) (him : t.imem = s.imem) :
    (InRange s.imem.size target → fetch t = .ok (s.imem.readWord target.toNat)) ∧
      (t.status = .running → ¬ InRange s.imem.size target →
        ∃ u, step t = .next u ∧ FaultedWith (.outOfRange .fetch target) t u) := by
  subst hpc
  rw [← him]
  exact ⟨fetch_of_inRange, fun ht hpc => ⟨_, step_of_bad_fetch ht (accepts_eq_false hpc), rfl⟩⟩

/-- A taken branch and a JAL have no data address and go on at the target. -/
theorem effectOf_of_transfer {i : Instr} {off : Word} {s : State}
    (h : (∃ rd, i = .jal rd off) ∨ (∃ rs1 rs2, i = .beq rs1 rs2 off ∧ s.reg rs1 = s.reg rs2) ∨
      (∃ rs1 rs2, i = .bne rs1 rs2 off ∧ s.reg rs1 ≠ s.reg rs2)) :
    i ≠ .halt ∧ dataAddress s i = none ∧ (effectOf s i).nextPc = s.pc + off := by
  obtain ⟨rd, rfl⟩ | ⟨rs1, rs2, rfl, heq⟩ | ⟨rs1, rs2, rfl, hne⟩ := h
  · exact ⟨by simp, rfl, rfl⟩
  · exact ⟨by simp, rfl, if_pos heq⟩
  · exact ⟨by simp, rfl, if_neg hne⟩

/-- Settles O39: the transfer completes unchecked, and the next step's fetch checks the target. -/
theorem badTargetRaisesAtNextFetch : Obligations.BadTargetRaisesAtNextFetch := by
  unfold Obligations.BadTargetRaisesAtNextFetch
  intro i off s hs h
  obtain ⟨hi, ha, hpc⟩ := effectOf_of_transfer h
  have hrun : (commit (effectOf s i) s).status = .running := by rw [commit_status, hs]
  obtain ⟨hgood, hbad⟩ := fetch_of_target (s := s) (t := commit (effectOf s i) s) hpc (commit_imem _ s)
  refine ⟨_, exec_of_no_address s hi ha, hrun, hpc, ?_, hgood, hbad hrun⟩
  rintro rd rfl
  simp [commit_reg, effectOf]

/-! ### HALT -/

/-- Settles O38: the mask compares the opcode, and that opcode decodes to HALT. -/
theorem haltChangesOnlyTheStatus : Obligations.HaltChangesOnlyTheStatus := by
  unfold Obligations.HaltChangesOnlyTheStatus
  refine ⟨exec_halt, fun s w hs hf hw => ?_⟩
  have hop : fieldOpcode w = opHalt := (mask_opcode w _ (by decide)).1 hw
  rw [step_of_decoded hs hf (decodeWord_of_opHalt hop), exec_halt]

/-! ### LW and SW -/

/-- LW and SW complete when their data address is in range (R54, R55). -/
theorem exec_of_inRange {i : Instr} {s : State} {a : Word} (ha : dataAddress s i = some a) (h : InRange s.dmem.size a) :
    exec i s = .next (commit (effectOf s i) s) := by
  rw [exec_of_address ha, if_pos ((accepts_iff_inRange ..).2 h)]

/-- A LW whose address is in range writes the word there to its destination, and nothing else. -/
theorem exec_lw_wroteRegister {rd rs1 : RegIdx} {imm : Word} {s : State} (h : InRange s.dmem.size (s.reg rs1 + imm)) :
    ∃ t, exec (.lw rd rs1 imm) s = .next t ∧
      WroteRegister rd (s.dmem.readWord (s.reg rs1 + imm).toNat) (s.pc + 4#32) s t :=
  ⟨_, exec_of_inRange rfl h, commit_wroteRegister rfl rfl rfl⟩

/-- Settles O33: the word read is made up of the four bytes, the lowest address first. -/
theorem loadWordReadsFourBytes : Obligations.LoadWordReadsFourBytes := by
  unfold Obligations.LoadWordReadsFourBytes
  exact fun rd rs1 imm s h => exec_lw_wroteRegister h

/-- What a word write leaves in each byte, in the terms of the claim on SW (R55). -/
theorem commit_wroteWord {a v npc : Word} {s : State} (hwf : Store.wf s.dmem) :
    WroteWord a v npc s (commit ⟨none, some (a, v), npc⟩ s) := by
  have hdm : (commit ⟨none, some (a, v), npc⟩ s).dmem = s.dmem.writeWord a.toNat v := commit_dmem ..
  rw [WroteWord, hdm]
  refine ⟨?b0, ?b1, ?b2, ?b3, fun b hb => readByte_writeWord_outside hwf.1 hb v, fun r => commit_reg _ s r, rfl, rfl,
    commit_status .., commit_imem .., rfl⟩
  all_goals
    rw [readByte_writeWord hwf.1]
    simp [wordByte]

/-- Settles O34: in range the effect is one word write. -/
theorem storeWordWritesFourBytes : Obligations.StoreWordWritesFourBytes := by
  unfold Obligations.StoreWordWritesFourBytes
  exact fun rs1 rs2 imm s hwf h => ⟨_, exec_of_inRange rfl h, commit_wroteWord hwf⟩

/-- A word is determined by its four bytes. -/
theorem readWord_congr {st st' : Store} {a : Nat} (h : ∀ k, k < 4 → st'.readByte (a + k) = st.readByte (a + k)) :
    st'.readWord a = st.readWord a := by
  simp only [Store.readWord]
  rw [h 1 (by decide), h 2 (by decide), h 3 (by decide), show st'.readByte a = st.readByte a from h 0 (by decide)]

/-- Settles O35: the four bytes the SW left make up the stored word again. -/
theorem loadReturnsStoredValue : Obligations.LoadReturnsStoredValue := by
  unfold Obligations.LoadReturnsStoredValue
  refine ⟨fun s t u rs1 rs2 rd base imm imm' hwf hs hsw ht hsize haddr hbytes => ?_, fun i s t hi h => ?_⟩
  · have hrange : InRange s.dmem.size (s.reg rs1 + imm) := by
      by_contra hna
      rw [exec_of_not_inRange rfl hna] at hsw
      cases hsw
      cases ht
    have hdm : t.dmem = s.dmem.writeWord (s.reg rs1 + imm).toNat (s.reg rs2) := by
      rw [eq_commit_of_exec_running hsw ht, commit_dmem]
      rfl
    have hword : u.dmem.readWord (s.reg rs1 + imm).toNat = s.reg rs2 := by
      rw [readWord_congr hbytes, hdm, readWord_writeWord hwf.1]
    obtain ⟨v, hlw, hreg, -, -, -, hstatus, -⟩ := exec_lw_wroteRegister (rd := rd) (rs1 := base) (imm := imm') (s := u)
      (by rwa [haddr, hsize, hdm, writeWord_size])
    exact ⟨v, hlw, by rw [hreg, haddr, hword], hstatus⟩
  · obtain hk | ⟨rs1, rs2, imm, rfl, -⟩ := exec_dmem_cases h
    · exact hk
    · exact absurd rfl (hi rs1 rs2 imm)

end Sys2Proof.Machine
end

section
/-! Canonical memories as data (10_state.md section 7), and the two readings of an effective address (R57). -/

namespace Sys2Proof.Machine

/-! ### Canonical memories -/

/-- A cell of a canonical memory is what its address reads as, and no unlisted byte. -/
theorem mem_iff_read {m : Memory} (h : Memory.wf m) (c : Host.Cell) :
    c ∈ m ↔ Memory.read m c.1 = c.2 ∧ c.2 ≠ Memory.unlisted := by
  induction m with
  | nil => simpa [Memory.read] using fun he : Memory.unlisted = c.2 => he.symm
  | cons d m ih =>
    obtain ⟨hlow, hm⟩ := List.pairwise_cons.1 h.1
    obtain ⟨hd, hlisted⟩ := List.forall_mem_cons.1 h.2
    have htail := ih ⟨hm, hlisted⟩
    rw [List.mem_cons, Memory.read]
    by_cases hc : d.1 = c.1
    · rw [if_pos hc]
      have hnot : c ∉ m := fun hmem => absurd (hlow c hmem) (by omega)
      constructor
      · rintro (rfl | hmem)
        · exact ⟨rfl, hd⟩
        · exact absurd hmem hnot
      · exact fun ⟨hval, _⟩ => .inl (Prod.ext hc.symm hval.symm)
    · rw [if_neg hc, ← htail]
      exact or_iff_right fun he => hc (by rw [he])

/-- Settles O40: reads determine the cells, and strictly rising lists with the same cells are equal. -/
theorem canonicalMemoriesAreDeterminedByReads : Obligations.CanonicalMemoriesAreDeterminedByReads := by
  unfold Obligations.CanonicalMemoriesAreDeterminedByReads
  intro m1 m2 h1 h2 hread
  have hnodup : ∀ {m : Memory}, Memory.wf m → m.Nodup := fun h => h.1.imp fun hlt he => absurd hlt (by rw [he]; omega)
  have hperm : m1.Perm m2 := by
    refine (List.perm_ext_iff_of_nodup (hnodup h1) (hnodup h2)).2 fun c => ?_
    rw [mem_iff_read h1, mem_iff_read h2, hread]
  exact hperm.eq_of_pairwise (fun a b _ _ hab hba => absurd hab (by omega)) h1.1 h2.1

/-! ### Effective addresses (R57) -/

/-- A 12-bit immediate lies in −2048 to 2047 (R90, R91). -/
theorem toInt_bounds_of_imm12Ok {imm : Word} (h : imm12Ok imm = true) : -2048 ≤ imm.toInt ∧ imm.toInt ≤ 2047 := by
  have hval : imm.toInt = (imm.setWidth 12).toInt := by
    rw [← BitVec.toInt_signExtend_of_le (by decide : 12 ≤ 32), signExtend_of_fits h]
  have hlo : -2 ^ 11 ≤ (imm.setWidth 12).toInt := BitVec.le_toInt _
  have hhi : (imm.setWidth 12).toInt < 2 ^ 11 := BitVec.toInt_lt
  omega

/-- A word as an unsigned number is its signed value, up to `2 ^ 32`. -/
theorem toInt_eq_toNat_or (w : Word) :
    (w.toInt = w.toNat ∧ w.toNat < 2147483648) ∨ (w.toInt = w.toNat - 4294967296 ∧ 2147483648 ≤ w.toNat) := by
  rw [BitVec.toInt_eq_toNat_cond]
  split <;> omega

/-- The 32-bit effective address is the unbounded sum, up to a multiple of `2 ^ 32`. -/
theorem toNat_effectiveAddress (base imm : Word) :
    ((effectiveAddress base imm).toNat : Int) = (base.toInt + imm.toInt) % 4294967296 := by
  have h : (effectiveAddress base imm).toNat = (base.toNat + imm.toNat) % 4294967296 := BitVec.toNat_add ..
  have hb := toInt_eq_toNat_or base
  have hi := toInt_eq_toNat_or imm
  omega

/-- Settles O41: below `2 ^ 31 − 2048` a wrapped sum is too large for the store; at `2 ^ 31` it need not be. -/
theorem effectiveAddressReadings : Obligations.EffectiveAddressReadings := by
  unfold Obligations.EffectiveAddressReadings
  refine ⟨fun st base imm himm hsize => ?_, ⟨2147483648, []⟩, 0x80000000#32, -4, by decide, rfl, by decide, by decide⟩
  obtain ⟨hlo, hhi⟩ := toInt_bounds_of_imm12Ok himm
  have haddr := toNat_effectiveAddress base imm
  have hbase := toInt_eq_toNat_or base
  have hlt := base.isLt
  rw [accepts_iff]
  omega

end Sys2Proof.Machine
end

section
/-! A straight line of instructions and HALT (R167). -/

namespace Sys2Proof.Machine

/-- Neither a branch, nor JAL, nor HALT: one of the eleven that go on at the next word. -/
theorem mnemonic_of_isStraight {i : Instr} (h : isStraight i = true) :
    i.mnemonic ∈ ["ADD", "SUB", "XOR", "OR", "AND", "ADDI", "XORI", "ORI", "ANDI", "LW", "SW"] := by
  cases i with
  | beq | bne | jal | halt => simp [isStraight, Instr.mnemonic] at h
  | _ => simp [Instr.mnemonic]

theorem isPlainAlu_iff (i : Instr) :
    isPlainAlu i = true ↔ isStraight i = true ∧ i.mnemonic ≠ "LW" ∧ i.mnemonic ≠ "SW" := by
  simp [isPlainAlu, and_assoc]

theorem ne_halt_of_isStraight {i : Instr} (h : isStraight i = true) : i ≠ .halt := by
  rintro rfl
  simp [isStraight, Instr.mnemonic] at h

/-- A core that has completed `k` instructions of the line in `s` from address 0 and stands at the next one. -/
structure AtLine (s : State) (k : Nat) (t : State) : Prop where
  running : t.status = .running
  cycle   : t.cycle = k
  pc      : t.pc.toNat = 4 * k
  imem    : t.imem = s.imem

section
variable {s t : State} {k : Nat} (ht : AtLine s k t) (hfit : 4 * k + 4 ≤ s.imem.size)
include ht hfit

/-- The step there executes the instruction at `4 k`. -/
theorem AtLine.step_eq {i : Instr} (hd : decodeWord (s.imem.readWord (4 * k)) = .ok i) : step t = exec i t := by
  have hpc : InRange t.imem.size t.pc := by
    rw [InRange, ht.imem, ht.pc]
    omega
  refine step_of_decoded ht.running (fetch_of_inRange hpc) ?_
  rwa [ht.imem, ht.pc]

/-- Having completed a straight instruction, the core stands one further. -/
theorem AtLine.commit_straight (hsize : s.imem.size ≤ 2147483648) {i : Instr} (hi : isStraight i = true) :
    AtLine s (k + 1) (commit (effectOf t i) t) := by
  refine ⟨?running, ?cycle, ?pc, ?imem⟩
  case running => rw [commit_status, ht.running]
  case cycle => rw [commit_cycle, ht.cycle]
  case imem => rw [commit_imem, ht.imem]
  case pc =>
    rw [commit_pc, effectOf_nextPc_sequential t (mnemonic_of_isStraight hi), BitVec.toNat_add, ht.pc,
      BitVec.toNat_ofNat]
    omega

end

section
variable {s : State} {n : Nat} (hstart : AtLine s 0 s) (hfit : 4 * n + 4 ≤ s.imem.size) (hsize : s.imem.size ≤ 2147483648)
include hstart hfit hsize

/-- A core still Running after `k` steps has completed `k` instructions of the line. -/
theorem atLine_of_run (hline : ∀ k, k < n → ∃ i, decodeWord (s.imem.readWord (4 * k)) = .ok i ∧ isStraight i = true)
    {k : Nat} (hk : k ≤ n) {t : State} (hrun : Host.Core.run core k s = .next t) (ht : t.status = .running) :
    AtLine s k t := by
  induction k generalizing t with
  | zero =>
    cases hrun
    exact hstart
  | succ k ih =>
    obtain ⟨u, hu, hstep⟩ := run_succ_iff.1 hrun
    have hat : AtLine s k u := ih (by omega) hu (running_of_step hstep)
    obtain ⟨i, hd, hi⟩ := hline k (by omega)
    rw [hat.step_eq (by omega) hd] at hstep
    rw [eq_commit_of_exec_running hstep ht]
    exact hat.commit_straight (by omega) hsize hi

/-- Where no instruction of the line accesses data, the core gets as far as any step of it. -/
theorem exists_run_of_isPlainAlu
    (hline : ∀ k, k < n → ∃ i, decodeWord (s.imem.readWord (4 * k)) = .ok i ∧ isPlainAlu i = true)
    {k : Nat} (hk : k ≤ n) : ∃ t : State, Host.Core.run core k s = .next t ∧ AtLine s k t := by
  induction k with
  | zero => exact ⟨s, run_zero s, hstart⟩
  | succ k ih =>
    obtain ⟨u, hu, hat⟩ := ih (by omega)
    obtain ⟨i, hd, hi⟩ := hline k (by omega)
    obtain ⟨hstraight, hlw, hsw⟩ := (isPlainAlu_iff i).1 hi
    refine ⟨_, run_succ_iff.2 ⟨u, hu, ?_⟩, hat.commit_straight (by omega) hsize hstraight⟩
    rw [hat.step_eq (by omega) hd]
    exact exec_of_no_address u (ne_halt_of_isStraight hstraight) (dataAddress_eq_none hlw hsw u)

end

/-- Settles O42: the core stands at the HALT after `n` completed instructions, and plain ones all complete. -/
theorem haltTerminatesStraightLine : Obligations.HaltTerminatesStraightLine := by
  unfold Obligations.HaltTerminatesStraightLine
  intro s n hs hpc hcycle hfit hsize hline hhalt
  have hstart : AtLine s 0 s := ⟨hs, hcycle, by rw [hpc]; rfl, rfl⟩
  refine ⟨fun t hrun ht => ?_, fun hplain => ?_⟩
  · have hat : AtLine s n t := atLine_of_run hstart hfit hsize hline le_rfl hrun ht
    exact ⟨hat.cycle, hat.pc, by rw [hat.step_eq hfit hhalt, exec_halt]⟩
  · obtain ⟨t, hrun, hat⟩ := exists_run_of_isPlainAlu hstart hfit hsize hplain le_rfl
    exact ⟨t, hrun, hat.running⟩

end Sys2Proof.Machine
end

section
/-! Several cores side by side (60_exceptions.md section 10): what a schedule makes of each, launching them, and progress
under a fair schedule. -/

namespace Sys2Proof.Machine

/-! ### Interleavings (R67) -/

/-- One request, seen from core `i`. -/
theorem System.stepCore_core (sys : System) (j i : Nat) :
    (sys.stepCore j).cores[i]? = (sys.cores[i]?).map (requests (if j = i then 1 else 0)) := by
  rw [System.cores_stepCore, List.getElem?_modify]
  split <;> rfl

/-- Requests one after the other. -/
theorem requests_add (m n : Nat) (s : State) : requests (m + n) s = requests n (requests m s) := by
  induction m generalizing s with
  | zero => rw [Nat.zero_add]; rfl
  | succ m ih => rw [Nat.succ_add, requests, ih]; rfl

/-- Under any schedule a core ends as its own requests leave it. -/
theorem System.run_core (sys : System) (schedule : List Nat) (i : Nat) :
    (sys.run schedule).cores[i]? = (sys.cores[i]?).map (requests (schedule.count i)) := by
  induction schedule generalizing sys with
  | nil => exact Option.map_id'.symm
  | cons j rest ih =>
    rw [System.run, ih, System.stepCore_core, Option.map_map, List.count_cons, Nat.add_comm]
    congr 1
    funext s
    simp [requests_add]

theorem System.ext_cores {a b : System} (h : a.cores = b.cores) : a = b := by
  obtain ⟨first, rest⟩ := a
  cases h
  rfl

/-- No request changes the instruction store (R34). -/
theorem request_imem (s : State) : (request s).imem = s.imem := by
  unfold request
  split
  · exact step_imem ‹_›
  · rfl
  · rfl

theorem requests_imem (n : Nat) (s : State) : (requests n s).imem = s.imem := by
  induction n with
  | zero => rfl
  | succ n ih => rw [requests_succ, request_imem, ih]

/-- A core of the system after a schedule holds the instruction store of one of the first system's cores. -/
theorem System.exists_imem_of_mem_run {sys : System} {schedule : List Nat} {t : State} (h : t ∈ (sys.run schedule).cores) :
    ∃ s ∈ sys.cores, t.imem = s.imem := by
  obtain ⟨i, hi⟩ := List.mem_iff_getElem?.1 h
  rw [System.run_core] at hi
  obtain ⟨s, hs, rfl⟩ := Option.map_eq_some_iff.1 hi
  exact ⟨s, List.mem_of_getElem? hs, requests_imem ..⟩

/-- Settles O43: each core depends on its own number of requests, and no request changes an instruction store. -/
theorem instancesAreIndependent : Obligations.InstancesAreIndependent := by
  unfold Obligations.InstancesAreIndependent
  refine ⟨System.run_core, fun sys a b h => ?_, fun sys schedule hshare s hs t ht => ?_⟩
  · refine System.ext_cores (List.ext_getElem? fun i => ?_)
    rw [System.run_core, System.run_core, h]
  · obtain ⟨s', hs', he⟩ := System.exists_imem_of_mem_run hs
    obtain ⟨t', ht', he'⟩ := System.exists_imem_of_mem_run ht
    rw [he, he', hshare s' hs' t' ht']

/-! ### Launching a system (R196) -/

theorem launchEach_cons_eq_ok_iff {p : Images} {rest : List Images} {ss : List State} :
    launchEach (p :: rest) = .ok ss ↔
      ∃ s ss', launch p.imem p.dmem = .ok s ∧ launchEach rest = .ok ss' ∧ ss = s :: ss' := by
  rw [launchEach]
  cases launch p.imem p.dmem with
  | error e => simp
  | ok s => cases launchEach rest <;> simp [eq_comm]

/-- Every core is launched exactly when every pair of images is legal. -/
theorem exists_launchEach_iff (images : List Images) :
    (∃ ss, launchEach images = .ok ss) ↔ ∀ p ∈ images, LegalImages p.imem p.dmem := by
  induction images with
  | nil => simp [launchEach]
  | cons p rest ih =>
    rw [List.forall_mem_cons, ← ih, ← exists_launch_iff]
    simp only [launchEach_cons_eq_ok_iff]
    exact ⟨fun ⟨_, s, ss', hs, hss, _⟩ => ⟨⟨s, hs⟩, ss', hss⟩, fun ⟨⟨s, hs⟩, ss', hss⟩ => ⟨_, s, ss', hs, hss, rfl⟩⟩

/-- The converse of `System.launch_ok`. -/
theorem System.launch_of_launchEach {images : List Images} {sys : System} (h : launchEach images = .ok sys.cores) :
    System.launch images = .ok sys := by
  rw [System.launch, h]
  rfl

/-- A system is launched exactly when there is a core to launch and every pair of images is legal. -/
theorem System.exists_launch_iff (images : List Images) :
    (∃ sys, System.launch images = .ok sys) ↔ images ≠ [] ∧ ∀ p ∈ images, LegalImages p.imem p.dmem := by
  rw [← exists_launchEach_iff]
  constructor
  · rintro ⟨sys, h⟩
    have hss := System.launch_ok h
    refine ⟨?_, _, hss⟩
    rintro rfl
    cases hss
  · rintro ⟨hne, ss, hss⟩
    obtain ⟨hlen, -⟩ := launchEach_ok hss
    cases ss with
    | nil => exact absurd (List.length_eq_zero_iff.1 hlen.symm) hne
    | cons s ss => exact ⟨⟨s, ss⟩, System.launch_of_launchEach hss⟩

/-- A launched system has one core for each pair of images, in the reset state of that pair. -/
theorem System.cores_of_launch {images : List Images} {sys : System} (h : System.launch images = .ok sys) :
    sys.ncores = images.length ∧ ∀ (k : Nat) (p : Images), images[k]? = some p →
      sys.cores[k]? = some (State.resetWith (Store.ofBytes p.imem) (Store.ofBytes p.dmem)) := by
  obtain ⟨hlen, hcore⟩ := launchEach_ok (System.launch_ok h)
  refine ⟨hlen, fun k p hp => ?_⟩
  obtain ⟨s, hs, hl⟩ := hcore k p hp
  obtain ⟨-, rfl⟩ := launch_eq_ok_iff.1 hl
  exact hs

/-- Each core of a launched system holds the instruction image of one of the pairs. -/
theorem System.exists_image_of_mem_launch {images : List Images} {sys : System} (h : System.launch images = .ok sys)
    {s : State} (hs : s ∈ sys.cores) : ∃ p ∈ images, s.imem = Store.ofBytes p.imem := by
  obtain ⟨hlen, hcore⟩ := System.cores_of_launch h
  obtain ⟨k, hk, rfl⟩ := List.mem_iff_getElem.1 hs
  have hk' : k < images.length := hlen ▸ hk
  have hcell := hcore k _ (List.getElem?_eq_getElem hk')
  rw [List.getElem?_eq_getElem hk, Option.some.injEq] at hcell
  exact ⟨_, List.getElem_mem hk', by rw [hcell, resetWith_imem]⟩

/-- Cores launched with one instruction image share it (R67). -/
theorem System.launchShared_ok {imemInit : List Byte} {dmemInits : List (List Byte)} {sys : System}
    (h : System.launchShared imemInit dmemInits = .ok sys) : sys.sharesImem ∧ sys.ncores = dmemInits.length := by
  have himem : ∀ s ∈ sys.cores, s.imem = Store.ofBytes imemInit := by
    intro s hs
    obtain ⟨p, hp, he⟩ := System.exists_image_of_mem_launch h hs
    obtain ⟨d, -, rfl⟩ := List.mem_map.1 hp
    exact he
  refine ⟨fun s hs t ht => by rw [himem s hs, himem t ht], ?_⟩
  rw [(System.cores_of_launch h).1, List.length_map]

/-- Settles O45: a launch of a system is the launch of each core, and a schedule steps cores without adding or removing any. -/
theorem launchedInstancesDifferOnlyInImages : Obligations.LaunchedInstancesDifferOnlyInImages := by
  unfold Obligations.LaunchedInstancesDifferOnlyInImages
  exact ⟨System.exists_launch_iff, fun images sys => System.cores_of_launch, fun im dms sys => System.launchShared_ok,
    fun sys schedule => ⟨sys.ncores_pos, sys.ncores_run schedule⟩⟩

/-! ### Progress under fair schedules (R220) -/

section
variable {sys : System} {schedule : Nat → Nat}

/-- Until its next request a core stays as it is. -/
theorem System.after_core_of_not_asked {i n m : Nat} (hnm : n ≤ m) (hnot : ∀ k, n ≤ k → k < m → schedule k ≠ i) :
    (sys.after schedule m).cores[i]? = (sys.after schedule n).cores[i]? := by
  induction m, hnm using Nat.le_induction with
  | base => rfl
  | succ m hm ih =>
    rw [System.after_succ_core, if_neg (hnot m hm (Nat.lt_succ_self m))]
    exact ih fun k hk hlt => hnot k hk (Nat.lt_succ_of_lt hlt)

/-- A core that is asked again at some time is, from now, asked a first time. -/
theorem exists_next_request {i n : Nat} (h : ∃ m, n ≤ m ∧ schedule m = i) :
    ∃ m, n ≤ m ∧ schedule m = i ∧ ∀ k, n ≤ k → k < m → schedule k ≠ i := by
  classical
  obtain ⟨hle, heq⟩ := Nat.find_spec h
  exact ⟨Nat.find h, hle, heq, fun k hk hlt he => Nat.find_min h hlt ⟨hk, he⟩⟩

/-- Under a fair schedule every core reaches the state any number of its own requests gives it. -/
theorem System.Fair.exists_after_core (hfair : sys.Fair schedule) (i k : Nat) :
    ∃ n, (sys.after schedule n).cores[i]? = (sys.cores[i]?).map (requests k) := by
  induction k with
  | zero => exact ⟨0, Option.map_id'.symm⟩
  | succ k ih =>
    obtain ⟨n, hn⟩ := ih
    cases hcore : sys.cores[i]? with
    | none => exact ⟨n, by rw [hn, hcore]; rfl⟩
    | some s =>
      rw [hcore, Option.map_some] at hn
      by_cases hrun : (requests k s).status = .running
      · obtain ⟨m, hnm, hm, hnot⟩ := exists_next_request (hfair n i _ hn hrun)
        refine ⟨m + 1, ?_⟩
        rw [System.after_succ_core, if_pos hm, System.after_core_of_not_asked hnm hnot, hn, Option.map_some, Option.map_some,
          requests_succ]
      · exact ⟨n, by rw [hn, Option.map_some, requests_succ, request_of_not_running hrun]⟩

/-- A core that is not Running stays as it is under every schedule. -/
theorem System.after_core_of_not_running {i n m : Nat} {s : State} (hnm : n ≤ m)
    (hs : (sys.after schedule n).cores[i]? = some s) (hstop : s.status ≠ .running) :
    (sys.after schedule m).cores[i]? = some s := by
  induction m, hnm using Nat.le_induction with
  | base => exact hs
  | succ m _ ih =>
    rw [System.after_succ_core, ih, Option.map_some, request_of_not_running hstop]
    exact ite_self _

/-- A core that its own requests stop is, under a fair schedule, not Running from some time on. -/
theorem System.Fair.eventually_stopped (hfair : sys.Fair schedule) {i k : Nat} {s : State} (hs : sys.cores[i]? = some s)
    (hstop : (requests k s).status ≠ .running) :
    ∃ n, ∀ m, n ≤ m → ∀ t, (sys.after schedule m).cores[i]? = some t → t.status ≠ .running := by
  obtain ⟨n, hn⟩ := hfair.exists_after_core i k
  rw [hs, Option.map_some] at hn
  refine ⟨n, fun m hnm t ht => ?_⟩
  rw [System.after_core_of_not_running hnm hn hstop] at ht
  cases ht
  exact hstop

theorem System.finished_iff (sys : System) :
    sys.finished = true ↔ ∀ (i : Nat) (t : State), sys.cores[i]? = some t → t.status ≠ .running := by
  simp only [System.finished, List.all_eq_true, bne_iff_ne, List.mem_iff_getElem?]
  exact ⟨fun h i t ht => h t ⟨i, ht⟩, fun h t ⟨i, ht⟩ => h i t ht⟩

/-- The latest of the times at which the cores have stopped is one at which all have. -/
theorem System.Fair.exists_finished (hfair : sys.Fair schedule)
    (hstop : ∀ s ∈ sys.cores, ∃ k, (requests k s).status ≠ .running) : ∃ n, (sys.after schedule n).finished = true := by
  have hcore : ∀ i : Fin sys.ncores, ∃ n, ∀ m, n ≤ m → ∀ t, (sys.after schedule m).cores[i.1]? = some t → t.status ≠ .running := by
    intro i
    obtain ⟨k, hk⟩ := hstop _ (List.getElem_mem i.2)
    exact hfair.eventually_stopped (List.getElem?_eq_getElem i.2) hk
  choose time htime using hcore
  refine ⟨Finset.univ.sup time, (System.finished_iff _).2 fun i t ht => ?_⟩
  have hi : i < sys.ncores := by
    rw [← System.ncores_after sys schedule (Finset.univ.sup time)]
    exact (List.getElem?_eq_some_iff.1 ht).1
  exact htime ⟨i, hi⟩ _ (Finset.le_sup (Finset.mem_univ _)) t ht

end

/-- Stepping in turn asks core `i` again in every round. -/
theorem System.roundRobin_fair (sys : System) : sys.Fair sys.roundRobin := by
  intro n i s hs _
  have hi : i < sys.ncores := by
    rw [← System.ncores_after sys sys.roundRobin n]
    exact (List.getElem?_eq_some_iff.1 hs).1
  refine ⟨i + sys.ncores * n, ?_, ?_⟩
  · exact (Nat.le_mul_of_pos_left n sys.ncores_pos).trans (Nat.le_add_left ..)
  · rw [System.roundRobin, Nat.add_mul_mod_self_left, Nat.mod_eq_of_lt hi]

/-- Settles O46: fairness asks a Running core again, a stopped one stays, and a rotation comes back to every core. -/
theorem fairSchedulesMakeProgress : Obligations.FairSchedulesMakeProgress := by
  unfold Obligations.FairSchedulesMakeProgress
  exact ⟨fun sys schedule hfair => hfair.exists_after_core, fun sys schedule hfair => hfair.exists_finished,
    System.roundRobin_fair⟩

end Sys2Proof.Machine
end
